-- ==== Sys2Proof/Config.lean ====
section
/-! DEFINITION. What the implementation fixes (00_scope.md R6 to R8) and the two texts the spec leaves open. -/

namespace Sys2Proof.Config

/-- WORD_LENGTH, the number `L` of decimal digits of a word, the sign not counted (00_scope.md R6, R7). -/
abbrev wordLength : Nat := 6

/-- MEMORY_LENGTH, the number `N` of words of memory (00_scope.md R6, R7). -/
abbrev memoryLength : Nat := 250

/-- OPLEN, the number of digits of the opcode field (00_scope.md R7). -/
abbrev opcodeLength : Nat := 3

/-- The number of digits of the operand field, `L - OPLEN` (00_scope.md R7). -/
abbrev operandLength : Nat := 3

/-- The word modulus `M = 10^L` (00_scope.md R7). -/
abbrev wordModulus : Nat := 1000000

/-- How many operand values a word can spell, `10^(L - OPLEN)` (00_scope.md R7). -/
abbrev operandValues : Nat := 1000

/-- The number of characters of a legacy line: a sign and four digits (00_scope.md R7; loader only). -/
abbrev legacyLineLength : Nat := 5

/-- The number of characters of a word's text, `L + 1` (00_scope.md R7). -/
abbrev lineLength : Nat := 7

/-- HALT_NOTICE_TEXT, which the spec leaves open (41_io.md R133, decision D6): no body, so that no claim can
depend on its spelling. Log entry 10. -/
opaque haltNoticeText : List Char

/-- The terminator the output port adds to a word line, whose characters the source does not name
(41_io.md R133, decision D15): no body. Log entry 10. -/
opaque lineTerminator : List Char

end Sys2Proof.Config
end

