-- ==== Sys2Proof/Word.lean ====
section
/-! DEFINITION. The word of the machine: a sign and a decimal magnitude (00_scope.md R10, 20_memory.md R50). -/

namespace Sys2Proof

/-- The sign of a word (00_scope.md R10). -/
inductive Sign where
  | plus
  | minus
deriving DecidableEq, Repr

/-- The content of one memory cell: a sign and a magnitude below `M` (00_scope.md R10). `(minus, 0)`, the text
`-000000`, is a word distinct from `(plus, 0)`. The bound stands in the type, so that every cell holds a
well-formed word at every moment (20_memory.md R61). -/
structure Word where
  sign : Sign
  mag : Fin Config.wordModulus
deriving DecidableEq, Repr

/-- The word `+000000`, which fills unused memory (20_memory.md R60). -/
abbrev Word.zero : Word := ⟨.plus, 0⟩

/-- A finite string of characters (00_scope.md R10): an input line, a word's text, a source line. -/
abbrev Text : Type := List Char

end Sys2Proof
end

