-- ==== Sys2Proof/Syntax.lean ====
section
/-! DEFINITION. The twelve instructions of the closed opcode table (30_encoding.md R84). -/

namespace Sys2Proof

/-- One constructor per row of the opcode table. `a` is the operand: an absolute cell index 0..999
(30_encoding.md R82). HALT has no operand: its three operand digits are not looked at (R89). -/
inductive Instr where
  /-- 010 READ: input to cell `a` (41_io.md R134). -/
  | read (a : Nat)
  /-- 011 WRITE: output of cell `a` (41_io.md R137). -/
  | write (a : Nat)
  /-- 020 LOAD: accumulator from cell `a` (42_load_store.md R150). -/
  | load (a : Nat)
  /-- 021 STORE: accumulator to cell `a` (42_load_store.md R151). -/
  | store (a : Nat)
  /-- 030 ADD (43_arithmetic.md R162). -/
  | add (a : Nat)
  /-- 031 SUBTRACT (43_arithmetic.md R163). -/
  | subtract (a : Nat)
  /-- 032 DIVIDE (43_arithmetic.md R164). -/
  | divide (a : Nat)
  /-- 033 MULTIPLY (43_arithmetic.md R165). -/
  | multiply (a : Nat)
  /-- 040 BRANCH (44_control.md R181). -/
  | branch (a : Nat)
  /-- 041 BRANCH-NEG (44_control.md R182). -/
  | branchNeg (a : Nat)
  /-- 042 BRANCH-ZERO (44_control.md R183). -/
  | branchZero (a : Nat)
  /-- 043 HALT (44_control.md R185). -/
  | halt
deriving DecidableEq, Repr

end Sys2Proof
end

