-- ==== Sys2Proof/WellFormed.lean ====
section
/-! DEFINITION. Which instructions a word can spell: the operand has three decimal digits (30_encoding.md R80, R82). -/

namespace Sys2Proof

/-- The operand of an instruction, `none` for HALT (30_encoding.md R82, R89). -/
def Instr.operand? : Instr → Option Nat
  | .read a => some a
  | .write a => some a
  | .load a => some a
  | .store a => some a
  | .add a => some a
  | .subtract a => some a
  | .divide a => some a
  | .multiply a => some a
  | .branch a => some a
  | .branchNeg a => some a
  | .branchZero a => some a
  | .halt => none

/-- An instruction is well-formed when three digits can spell its operand, 0..999 (30_encoding.md R82). An operand
250..999 is well-formed: it is encodable, and executing it takes the fault InvalidMemoryAddress (R86). -/
def Instr.wellFormed (i : Instr) : Bool :=
  match i.operand? with
  | some a => decide (a < Config.operandValues)
  | none => true

end Sys2Proof
end

