-- ==== Sys2Proof/Decode.lean ====
section
/-! DEFINITION. The instruction decoder, the encoder, the physical BCD layout and the listing syntax
(30_encoding.md). -/

namespace Sys2Proof

/-- `digits[hi:lo]` of a magnitude: the number formed by its digits `hi` down to `lo`, digit 0 the least significant
(00_scope.md R9). -/
def digits (m hi lo : Nat) : Nat :=
  m / 10 ^ lo % 10 ^ (hi + 1 - lo)

/-- `opcode(w)`: the three digits after the sign (30_encoding.md R81). -/
def opcode (w : Word) : Nat :=
  digits w.mag.val (Config.wordLength - 1) (Config.wordLength - Config.opcodeLength)

/-- `operand(w)`: the remaining digits, an unsigned absolute cell index (30_encoding.md R82). -/
def operand (w : Word) : Nat :=
  digits w.mag.val (Config.wordLength - Config.opcodeLength - 1) 0

/-- Why a word, or a bit pattern, is no instruction. -/
inductive DecodeError where
  /-- The opcode is not in the closed table (30_encoding.md R85). -/
  | illegalOpcode (opc : Nat)
  /-- A nibble of a bit pattern is 10..15: it spells no word (30_encoding.md R88). -/
  | notDecimal
  /-- A bit above bit 24 is set: a physical word has 25 bits (30_encoding.md R88). -/
  | tooWide
deriving DecidableEq, Repr

/-- The decoder (30_encoding.md R84, R85). The sign of the word is not looked at (R83, the spec's decision D3: log
entry 12), nor are HALT's operand digits (R89, decision D4: log entry 13). -/
def decode (w : Word) : Except DecodeError Instr :=
  match opcode w with
  | 10 => .ok (.read (operand w))
  | 11 => .ok (.write (operand w))
  | 20 => .ok (.load (operand w))
  | 21 => .ok (.store (operand w))
  | 30 => .ok (.add (operand w))
  | 31 => .ok (.subtract (operand w))
  | 32 => .ok (.divide (operand w))
  | 33 => .ok (.multiply (operand w))
  | 40 => .ok (.branch (operand w))
  | 41 => .ok (.branchNeg (operand w))
  | 42 => .ok (.branchZero (operand w))
  | 43 => .ok .halt
  | opc => .error (.illegalOpcode opc)

/-- The opcodes of the closed table, in its order (30_encoding.md R84). -/
def opcodeTable : List Nat := [10, 11, 20, 21, 30, 31, 32, 33, 40, 41, 42, 43]

/-- The opcode of an instruction (30_encoding.md R84). -/
def Instr.opcode : Instr → Nat
  | .read _ => 10
  | .write _ => 11
  | .load _ => 20
  | .store _ => 21
  | .add _ => 30
  | .subtract _ => 31
  | .divide _ => 32
  | .multiply _ => 33
  | .branch _ => 40
  | .branchNeg _ => 41
  | .branchZero _ => 42
  | .halt => 43

/-- The word with a sign, an opcode field and an operand field: format W (30_encoding.md R80). -/
def instrWord (sg : Sign) (opc opr : Nat) : Word :=
  ⟨sg, Fin.ofNat Config.wordModulus (opc * Config.operandValues + opr)⟩

/-- The encoder: sign `+`, the opcode, the operand zero-padded to three digits; HALT with operand digits 000
(30_encoding.md R80, R84). -/
def encode (i : Instr) : Word :=
  instrWord .plus i.opcode (i.operand?.getD 0)

/-! ### The physical layout (30_encoding.md R88, the spec's own, optional) -/

/-- Nibble `i` of a physical word: digit `d[i]` at bits `4i+3..4i` (30_encoding.md R88). -/
def bcdDigit (b : BitVec 25) (i : Nat) : Nat :=
  (b.extractLsb' (4 * i) 4).toNat

/-- The word a physical pattern spells, refused where a nibble is above 9 (30_encoding.md R88;
93_implementation_defined.md item 20; log entry 8). -/
def Word.ofBcd (b : BitVec 25) : Except DecodeError Word :=
  if (List.range Config.wordLength).all (fun i => decide (bcdDigit b i < 10)) then
    .ok ⟨if b.getLsbD 24 then .minus else .plus,
      Fin.ofNat Config.wordModulus
        (bcdDigit b 0 + bcdDigit b 1 * 10 + bcdDigit b 2 * 100 + bcdDigit b 3 * 1000 + bcdDigit b 4 * 10000 +
          bcdDigit b 5 * 100000)⟩
  else .error .notDecimal

/-- The physical pattern of a word: the sign in bit 24 (1 for `-`), digit `d[i]` in bits `4i+3..4i`
(30_encoding.md R88). -/
def Word.toBcd (w : Word) : BitVec 25 :=
  BitVec.ofNat 25
    ((match w.sign with | .plus => 0 | .minus => 2 ^ 24) +
      (digits w.mag.val 0 0 + digits w.mag.val 1 1 * 16 + digits w.mag.val 2 2 * 16 ^ 2 + digits w.mag.val 3 3 * 16 ^ 3 +
        digits w.mag.val 4 4 * 16 ^ 4 + digits w.mag.val 5 5 * 16 ^ 5))

/-- The word the opcode table's numbering of bits gives: the low `nbits` bits of `w`, every bit above them 0. A word
has 25 bits (30_encoding.md R88), so a pattern with a bit above bit 24 is no word. -/
def tableWord (nbits w : Nat) : Except DecodeError Word :=
  if w % 2 ^ nbits < 2 ^ 25 then Word.ofBcd (BitVec.ofNat 25 (w % 2 ^ nbits)) else .error .tooWide

/-- The instruction the decoder reads from an opcode table pattern (30_encoding.md R88), `none` where it refuses. -/
def decodeTableWord (nbits w : Nat) : Option Instr :=
  match tableWord nbits w with
  | .ok v => (decode v).toOption
  | .error _ => none

/-! ### The listing syntax (30_encoding.md R91, the spec's own) -/

/-- The mnemonic of an instruction, hyphens dropped (30_encoding.md R91). -/
def Instr.mnemonic : Instr → String
  | .read _ => "READ"
  | .write _ => "WRITE"
  | .load _ => "LOAD"
  | .store _ => "STORE"
  | .add _ => "ADD"
  | .subtract _ => "SUBTRACT"
  | .divide _ => "DIVIDE"
  | .multiply _ => "MULTIPLY"
  | .branch _ => "BRANCH"
  | .branchNeg _ => "BRANCHNEG"
  | .branchZero _ => "BRANCHZERO"
  | .halt => "HALT"

/-- `MNEMONIC a`, and `HALT` alone (30_encoding.md R91). -/
def Instr.listing (i : Instr) : String :=
  match i.operand? with
  | some a => i.mnemonic ++ " " ++ toString a
  | none => i.mnemonic

/-- `DATA v`, the listing of a data word (30_encoding.md R91). -/
def dataListing (v : Int) : String :=
  "DATA " ++ toString v

end Sys2Proof
end

