-- ==== Sys2Proof/Machine/Codec.lean ====
section
/-! DEFINITION. The word codec: encode, decode, the textual form, and the check of an input line (20_memory.md). -/

namespace Sys2Proof

/-- The sign an encoded value takes: `+` for a value >= 0, else `-` (20_memory.md R51). -/
def signOf (v : Int) : Sign :=
  if 0 ≤ v then .plus else .minus

/-- `encode(v, L)` as a word (20_memory.md R51). Its domain is `|v| < M`; outside it, where no run of the machine
comes, it keeps the low `L` digits (log entry 7). -/
def Word.ofInt (v : Int) : Word :=
  ⟨signOf v, Fin.ofNat Config.wordModulus v.natAbs⟩

/-- An unsigned number under a sign (20_memory.md R52). -/
def signed (sg : Sign) (n : Nat) : Int :=
  match sg with
  | .plus => n
  | .minus => -n

/-- `decode(w)`: the integer a word stands for; `-000000` stands for 0 (20_memory.md R52). -/
def Word.toInt (w : Word) : Int :=
  signed w.sign w.mag.val

/-- The character of a decimal digit. -/
def digitChar (d : Nat) : Char :=
  Char.ofNat (48 + d % 10)

/-- The last `width` digits of `n`, most significant first, zero-padded (20_memory.md R50). -/
def digitsText : (width n : Nat) → Text
  | 0, _ => []
  | k + 1, n => digitChar (n / 10 ^ k) :: digitsText k n

/-- The character of a sign (20_memory.md R50). -/
def signChar : Sign → Char
  | .plus => '+'
  | .minus => '-'

/-- `text(w)`: the sign, then `L` digits (20_memory.md R50). -/
def Word.text (w : Word) : Text :=
  signChar w.sign :: digitsText Config.wordLength w.mag.val

/-- The text `encode(value, width)` produces at any width (20_memory.md R51). -/
def encodeText (v : Int) (width : Nat) : Text :=
  signChar (signOf v) :: digitsText width v.natAbs

/-- The value of a decimal digit character, `none` for any other (20_memory.md R53: `[0-9]`). -/
def digitValue? (c : Char) : Option Nat :=
  if 48 ≤ c.toNat ∧ c.toNat ≤ 57 then some (c.toNat - 48) else none

/-- A run of decimal digits read in base 10 after the digits already read; `none` at the first other character. -/
def parseDigits (read : Nat) : Text → Option Nat
  | [] => some read
  | c :: cs =>
    match digitValue? c with
    | some d => parseDigits (read * 10 + d) cs
    | none => none

/-- The sign a character spells (20_memory.md R50). -/
def signOfChar? (c : Char) : Option Sign :=
  if c = '+' then some .plus else if c = '-' then some .minus else none

/-- An optional sign and what follows it (20_memory.md R53); without one the sign is `+`. -/
def splitSign : Text → Sign × Text
  | [] => (.plus, [])
  | c :: cs =>
    match signOfChar? c with
    | some sg => (sg, cs)
    | none => (.plus, c :: cs)

/-- The integer a line spells: `[+-]?[0-9]+`, the whole of the line (20_memory.md R53, decision D12; log entry 16). -/
def parseInteger (t : Text) : Option Int :=
  match splitSign t with
  | (_, []) => none
  | (sg, c :: cs) =>
    match parseDigits 0 (c :: cs) with
    | some n => some (signed sg n)
    | none => none

/-- The value of an input line READ accepts: the integer it spells, of magnitude below `M` (41_io.md R132). -/
def acceptedValue (t : Text) : Option Int :=
  match parseInteger t with
  | some v => if v.natAbs < Config.wordModulus then some v else none
  | none => none

/-- `is_valid_word(t)` (20_memory.md R53). -/
def isValidWord (t : Text) : Bool :=
  (acceptedValue t).isSome

/-- The word whose text a line is: a sign, which is mandatory here, and exactly `L` digits
(70_reset_and_hazards.md R243); `none` for any other line. -/
def Word.ofText? : Text → Option Word
  | [] => none
  | c :: cs =>
    if cs.length = Config.wordLength then
      match signOfChar? c, parseDigits 0 cs with
      | some sg, some n => some ⟨sg, Fin.ofNat Config.wordModulus n⟩
      | _, _ => none
    else none

end Sys2Proof
end

