-- ==== Sys2Proof/Machine/State.lean ====
section
/-! DEFINITION. The state of the machine, as plain data, and its value after reset (10_state.md R20, R231). -/

namespace Sys2Proof.Machine

/-- A cause the engine can raise, with the value recorded in `fault.info` (60_exceptions.md R200). The latch
`State.fault` holds one; taking it is a next state (R206; log entry 5). -/
inductive EngineFault where
  /-- The operand is not below `N` (60_exceptions.md R201). The recorded value is an integer because the branch unit
  taken alone may be driven with a negative target (44_control.md R184). -/
  | invalidMemoryAddress (operand : Int)
  /-- The opcode is not in the table (60_exceptions.md R202). -/
  | invalidOpcode (opcode : Nat)
  /-- The divisor cell's value is 0 (60_exceptions.md R203). -/
  | divideByZero
  /-- A fetch at `pc >= N` (60_exceptions.md R205). -/
  | fetchOutOfRange (pc : Nat)
deriving DecidableEq, Repr

/-- The state of the fetch-execute FSM (10_state.md R31). -/
inductive Fsm where
  /-- No cycle has begun since reset or load. -/
  | ready
  | running
  /-- A READ cycle waits for a valid line; `a` is the operand of that cycle (`opr` of 40_cycle.md R110; log entry 4). -/
  | waitInput (a : Nat)
  | halted
  | faulted
deriving DecidableEq, Repr

/-- What the core hands the host through the I/O port, in order (41_io.md R131, R133, R140). -/
inductive PortEvent where
  /-- A request for one input line; it carries no text (41_io.md R131). -/
  | inputRequest
  /-- A word line: the text of a word, without the terminator the port adds (41_io.md R133). -/
  | word (t : Text)
  /-- The HALT notice, an event of its own kind (44_control.md R186). -/
  | haltNotice
deriving DecidableEq, Repr

/-- The cells of memory that differ from `+000000`, as (address, word) pairs with rising addresses (log entry 1). -/
abbrev Memory : Type := List (Nat × Word)

/-- The canonical form: addresses strictly rising and below `N`, no entry equal to what an unlisted address reads as. -/
abbrev Memory.wf (m : Memory) : Prop :=
  m.Pairwise (fun c d => c.1 < d.1) ∧ ∀ c ∈ m, c.1 < Config.memoryLength ∧ c.2 ≠ Word.zero

/-- The state: the core's six pieces (10_state.md R20), then the host's side of the interfaces, which is no core state
but stands here because a step is a function of the state alone (10_state.md R35, R44; log entry 2). -/
structure State where
  /-- The memory array, `N` words (10_state.md R34, 20_memory.md R58). -/
  mem : Memory
  /-- The accumulator, a signed integer with no negative zero (10_state.md R22, R24). -/
  acc : Int
  /-- The index of the next word to fetch, 0..N (10_state.md R26). -/
  pc : Nat
  /-- The one flag (10_state.md R28). -/
  halted : Bool
  /-- The fault latch (10_state.md R30). -/
  fault : Option EngineFault
  /-- The FSM state (10_state.md R31). -/
  fsm : Fsm
  /-- The host's level `stop_req` (60_exceptions.md R211). -/
  stopReq : Bool
  /-- The lines the host has supplied and no READ has taken, oldest first (41_io.md R131). -/
  input : List Text
  /-- What has crossed the I/O port toward the host, oldest first (41_io.md R133, R140). -/
  events : List PortEvent
deriving DecidableEq, Repr

/-- The machine right after its construction: the reset values of 70_reset_and_hazards.md R231, and empty streams and
`stop_req` low, which the spec leaves to the host (log entry 3). -/
def State.reset : State where
  mem := []
  acc := 0
  pc := 0
  halted := false
  fault := none
  fsm := .ready
  stopReq := false
  input := []
  events := []

/-- Why a step of the model stops without a next state. The machine's own faults are not here: they are latched in
`State.fault` and are next states (60_exceptions.md R206; log entry 5). -/
inductive Fault where
  /-- The memory array controller was asked for cell `addr` and there is no such cell (20_memory.md R59, R64). Raised
  by a meaning whose cell is not below `N` after the operand check let it pass, which no step does. Safe. Log entry 6. -/
  | noSuchCell (addr : Nat)
deriving DecidableEq, Repr

/-- Why an instruction has no meaning. -/
inductive Refusal where
  /-- The instruction named has no meaning in the model. Raised by no arm of `exec`: all twelve are modelled. Safe. -/
  | notModelled (mnemonic : String)
deriving DecidableEq, Repr

/-- What a meaning, a cycle or a step answers. -/
abbrev Result : Type := Host.Outcome State Fault Refusal

end Sys2Proof.Machine
end

