-- ==== Sys2Proof/Machine/Flags.lean ====
section
/-! DEFINITION. What stands in the place of flag computations. There are no condition codes (10_state.md R29,
43_arithmetic.md R168): the branches test the accumulator itself, and overflow is the truncation of 40_cycle.md R108. -/

namespace Sys2Proof.Machine

/-- The overflow unit at `width` digits: a magnitude of `10^width` or more keeps its low-order `width` digits and the
sign (40_cycle.md R108). -/
def truncateTo (width : Nat) (v : Int) : Int :=
  if v.natAbs < 10 ^ width then v
  else if 0 < v then (v.natAbs % 10 ^ width : Nat)
  else -(v.natAbs % 10 ^ width : Nat)

/-- `truncate(v)` of this hardware, `L = 6` (40_cycle.md R108). -/
def truncate (v : Int) : Int :=
  truncateTo Config.wordLength v

/-- The condition of BRANCH-NEG (44_control.md R182). -/
def accNegative (s : State) : Bool :=
  decide (s.acc < 0)

/-- The condition of BRANCH-ZERO (44_control.md R183). -/
def accZero (s : State) : Bool :=
  decide (s.acc = 0)

/-- The accumulator is in its range between cycles, `|acc| < M` (10_state.md R23). -/
abbrev State.accInRange (s : State) : Prop :=
  s.acc.natAbs < Config.wordModulus

end Sys2Proof.Machine
end

