-- ==== Sys2Proof/Machine/Ops.lean ====
section
/-! DEFINITION. The named operations over memory, registers and ports, and taking a fault. -/

namespace Sys2Proof.Machine

/-! ### The memory array (20_memory.md) -/

/-- The word at an address; an unlisted address reads `+000000` (20_memory.md R60, R62). -/
def Memory.read (m : Memory) (a : Nat) : Word :=
  match m with
  | [] => Word.zero
  | c :: rest => if c.1 = a then c.2 else Memory.read rest a

/-- The cells other than the one at `a`. -/
def Memory.without (m : Memory) (a : Nat) : Memory :=
  match m with
  | [] => []
  | c :: rest => if c.1 = a then Memory.without rest a else c :: Memory.without rest a

/-- A cell put in its place among rising addresses. -/
def Memory.place (m : Memory) (a : Nat) (w : Word) : Memory :=
  match m with
  | [] => [(a, w)]
  | c :: rest => if a < c.1 then (a, w) :: c :: rest else c :: Memory.place rest a w

/-- The whole word at `a` replaced by `w` (20_memory.md R63), in the canonical form: `+000000` is not listed. -/
def Memory.write (m : Memory) (a : Nat) (w : Word) : Memory :=
  if w = Word.zero then m.without a else (m.without a).place a w

/-- `MemRead(a, 1)`, defined only for `a < N` (20_memory.md R62, R64). -/
def State.memRead (s : State) (a : Nat) : Option Word :=
  if a < Config.memoryLength then some (s.mem.read a) else none

/-- `MemWrite(a, 1, w)`, defined only for `a < N` (20_memory.md R63, R64). -/
def State.memWrite (s : State) (a : Nat) (w : Word) : Option State :=
  if a < Config.memoryLength then some { s with mem := s.mem.write a w } else none

/-! ### Registers -/

/-- `pc <- pc + 1` (40_cycle.md R106). -/
def State.advance (s : State) : State :=
  { s with pc := s.pc + 1 }

/-- `pc <- target` (44_control.md R180). -/
def State.jump (s : State) (target : Nat) : State :=
  { s with pc := target }

/-- `acc <- v` (10_state.md R22). -/
def State.setAcc (s : State) (v : Int) : State :=
  { s with acc := v }

/-- `acc <- truncate(acc)`, the last action of every cycle that reached dispatch and did not fault (40_cycle.md R109). -/
def State.truncateAcc (s : State) : State :=
  { s with acc := truncate s.acc }

/-! ### The I/O port (41_io.md) -/

/-- `Out(kind, t)`: one event on the port, after every earlier one (41_io.md R133, R140). -/
def State.emit (s : State) (e : PortEvent) : State :=
  { s with events := s.events ++ [e] }

/-- The text an event carries to the host (41_io.md R133): the notice's is the open parameter. -/
def PortEvent.payload : PortEvent → Text
  | .inputRequest => []
  | .word t => t
  | .haltNotice => Config.haltNoticeText

/-- The characters a word line puts on the line-oriented port: its payload and the terminator (41_io.md R133). -/
def PortEvent.framed : PortEvent → Text
  | .word t => t ++ Config.lineTerminator
  | e => e.payload

/-! ### The FSM, a halt, a fault -/

/-- A cycle begins: Ready or Running to Running (10_state.md R32). -/
def State.beginCycle (s : State) : State :=
  { s with fsm := .running }

/-- `halted` set, the FSM in Halted (10_state.md R28, R31). -/
def State.halt (s : State) : State :=
  { s with halted := true, fsm := .halted }

/-- `raise F(info)`, the one way a fault is taken: the latch takes the cause and its value, the FSM goes to Faulted,
nothing else changes: no vector, no saved register, no mode (60_exceptions.md R206, 10_state.md R30). There is no
return from a fault: only reset or load leaves Faulted (R209). -/
def State.raise (s : State) (f : EngineFault) : State :=
  { s with fault := some f, fsm := .faulted }

/-- The number of a cause (60_exceptions.md R200, the spec's own numbers, decision D9). -/
def EngineFault.code : EngineFault → Nat
  | .invalidMemoryAddress _ => 2
  | .invalidOpcode _ => 3
  | .divideByZero => 6
  | .fetchOutOfRange _ => 7

/-- The value recorded with a cause (60_exceptions.md R200). -/
def EngineFault.info : EngineFault → Option Int
  | .invalidMemoryAddress t => some t
  | .invalidOpcode opc => some opc
  | .divideByZero => none
  | .fetchOutOfRange pc => some pc

/-- A cycle is performed only while no fault is latched and `halted` is false (40_cycle.md R100). -/
def State.active (s : State) : Bool :=
  s.fault.isNone && !s.halted

/-- A READ cycle waits for a line (10_state.md R31). -/
def State.waits (s : State) : Bool :=
  match s.fsm with
  | .waitInput _ => true
  | _ => false

/-- The end of a cycle that completed: the truncation step (40_cycle.md R109). -/
def complete (s : State) : Result :=
  .next s.truncateAcc

/-- The core's reset: memory, accumulator, program counter, `halted`, `fault` and `fsm` at their reset values; the
streams and `stop_req` are the host's and stay (70_reset_and_hazards.md R230, R231). -/
def State.resetCore (s : State) : State :=
  { State.reset with stopReq := s.stopReq, input := s.input, events := s.events }

end Sys2Proof.Machine
end

