-- ==== Sys2Proof/Machine/Operands.lean ====
section
/-! DEFINITION. The machine's one operand form, absolute direct: the operand is the cell (42_load_store.md R153) or the
branch target (44_control.md R180). -/

namespace Sys2Proof.Machine

/-- The part of a cycle every operation but HALT shares (40_cycle.md R105, R106): an operand not below `N` is the fault
InvalidMemoryAddress with `pc` not advanced; else `pc` advances and the operation runs. -/
def checkOperand (opr : Nat) (s : State) (op : State → Result) : Result :=
  if opr < Config.memoryLength then op s.advance
  else .next (s.raise (.invalidMemoryAddress opr))

/-- The word of the cell an operand names (20_memory.md R62). A cell that does not exist is asked for by no cycle
(20_memory.md R64; log entry 6). -/
def withCell (a : Nat) (s : State) (use : Word → Result) : Result :=
  match s.memRead a with
  | some w => use w
  | none => .fault (.noSuchCell a)

/-- The cell an operand names takes a word (20_memory.md R63), then the cycle goes on. -/
def storeCell (a : Nat) (w : Word) (s : State) (andThen : State → Result) : Result :=
  match s.memWrite a w with
  | some t => andThen t
  | none => .fault (.noSuchCell a)

end Sys2Proof.Machine
end

