-- ==== Sys2Proof/Machine/Arithmetic.lean ====
section
/-! DEFINITION. ADD, SUBTRACT, DIVIDE and MULTIPLY (43_arithmetic.md). -/

namespace Sys2Proof.Machine

/-- An arithmetic operation: accumulator op value-at-address, exact on integers, cut once by the truncation step
(43_arithmetic.md R160). -/
def arithmetic (op : Int → Int → Int) (a : Nat) (s : State) : Result :=
  checkOperand a s fun s1 => withCell a s1 fun w => complete (s1.setAcc (op s1.acc w.toInt))

/-- The quotient of DIVIDE for a divisor other than 0: the floor of the quotient of the magnitudes, negated where the
signs differ (43_arithmetic.md R164). -/
def quotient (n m : Int) : Int :=
  if n.sign = m.sign then (n.natAbs / m.natAbs : Nat) else -(n.natAbs / m.natAbs : Nat)

/-- ADD a (43_arithmetic.md R162). -/
def execAdd (a : Nat) (s : State) : Result :=
  arithmetic (fun x m => x + m) a s

/-- SUBTRACT a (43_arithmetic.md R163): the accumulator is the minuend. -/
def execSubtract (a : Nat) (s : State) : Result :=
  arithmetic (fun x m => x - m) a s

/-- DIVIDE a (43_arithmetic.md R164): the accumulator is the dividend; a divisor of value 0, `-000000` included, is the
fault DivideByZero with `pc` advanced and the accumulator kept (60_exceptions.md R203). -/
def execDivide (a : Nat) (s : State) : Result :=
  checkOperand a s fun s1 => withCell a s1 fun w =>
    if w.toInt = 0 then .next (s1.raise .divideByZero)
    else complete (s1.setAcc (quotient s1.acc w.toInt))

/-- MULTIPLY a (43_arithmetic.md R165). -/
def execMultiply (a : Nat) (s : State) : Result :=
  arithmetic (fun x m => x * m) a s

end Sys2Proof.Machine
end

