-- ==== Sys2Proof/Machine/Control.lean ====
section
/-! DEFINITION. BRANCH, BRANCH-NEG, BRANCH-ZERO and HALT (44_control.md). -/

namespace Sys2Proof.Machine

/-- The branch unit, driven with any integer target (44_control.md R184): a target outside `0..N-1` is the fault
InvalidMemoryAddress with `pc` as it was on entry, whether or not the branch would be taken; else `pc` takes the target
where the branch is taken. -/
def branchUnit (target : Int) (taken : Bool) (s : State) : Result :=
  if target < 0 ∨ (Config.memoryLength : Int) ≤ target then .next (s.raise (.invalidMemoryAddress target))
  else if taken then complete (s.jump target.toNat)
  else complete s

/-- BRANCH a (44_control.md R181). -/
def execBranch (a : Nat) (s : State) : Result :=
  checkOperand a s fun s1 => branchUnit a true s1

/-- BRANCH-NEG a (44_control.md R182). -/
def execBranchNeg (a : Nat) (s : State) : Result :=
  checkOperand a s fun s1 => branchUnit a (accNegative s1) s1

/-- BRANCH-ZERO a (44_control.md R183). -/
def execBranchZero (a : Nat) (s : State) : Result :=
  checkOperand a s fun s1 => branchUnit a (accZero s1) s1

/-- HALT (44_control.md R185): no operand check, no truncation step; `halted`, `pc + 1` and the notice. -/
def execHalt (s : State) : Result :=
  .next (s.halt.advance.emit .haltNotice)

end Sys2Proof.Machine
end

