-- ==== Sys2Proof/Machine/InputOutput.lean ====
section
/-! DEFINITION. READ and WRITE (41_io.md). -/

namespace Sys2Proof.Machine

/-- A READ cycle into cell `a` with a request outstanding, over the lines the host has supplied (41_io.md R131, R132,
R134): a line that is no valid word is dropped and asked for again; the first valid one is stored, re-encoded, and the
cycle completes; with no line left the FSM waits (10_state.md R32). -/
def awaitLine (a : Nat) : List Text → State → Result
  | [], s => .next { s with input := [], fsm := .waitInput a }
  | t :: rest, s =>
    match acceptedValue t with
    | some v => storeCell a (Word.ofInt v) { s with input := rest, fsm := .running } complete
    | none => awaitLine a rest (s.emit .inputRequest)

/-- READ a (41_io.md R134). -/
def execRead (a : Nat) (s : State) : Result :=
  checkOperand a s fun s1 => awaitLine a s1.input (s1.emit .inputRequest)

/-- WRITE a (41_io.md R137): the cell's own text, not passed through decode and encode (R138). -/
def execWrite (a : Nat) (s : State) : Result :=
  checkOperand a s fun s1 => withCell a s1 fun w => complete (s1.emit (.word w.text))

end Sys2Proof.Machine
end

