-- ==== Sys2Proof/Machine/LoadStore.lean ====
section
/-! DEFINITION. LOAD and STORE (42_load_store.md). -/

namespace Sys2Proof.Machine

/-- LOAD a (42_load_store.md R150). -/
def execLoad (a : Nat) (s : State) : Result :=
  checkOperand a s fun s1 => withCell a s1 fun w => complete (s1.setAcc w.toInt)

/-- STORE a (42_load_store.md R151). -/
def execStore (a : Nat) (s : State) : Result :=
  checkOperand a s fun s1 => storeCell a (Word.ofInt s1.acc) s1 complete

end Sys2Proof.Machine
end

