-- ==== Sys2Proof/Machine/Dispatch.lean ====
section
/-! DEFINITION. The dispatch over the closed opcode table (40_cycle.md R107): one arm per instruction. -/

namespace Sys2Proof.Machine

/-- What a decoded instruction does in a cycle that has fetched it: 40_cycle.md R104 to R109. -/
def exec (i : Instr) (s : State) : Host.Outcome State Fault Refusal :=
  match i with
  | .read a => Sys2Proof.Machine.execRead a s
  | .write a => Sys2Proof.Machine.execWrite a s
  | .load a => Sys2Proof.Machine.execLoad a s
  | .store a => Sys2Proof.Machine.execStore a s
  | .add a => Sys2Proof.Machine.execAdd a s
  | .subtract a => Sys2Proof.Machine.execSubtract a s
  | .divide a => Sys2Proof.Machine.execDivide a s
  | .multiply a => Sys2Proof.Machine.execMultiply a s
  | .branch a => Sys2Proof.Machine.execBranch a s
  | .branchNeg a => Sys2Proof.Machine.execBranchNeg a s
  | .branchZero a => Sys2Proof.Machine.execBranchZero a s
  | .halt => Sys2Proof.Machine.execHalt s

end Sys2Proof.Machine
end

