-- ==== Sys2Proof/Machine/Cycle.lean ====
section
/-! DEFINITION. The fetch-execute cycle and the sequencer (40_cycle.md R100 to R115). -/

namespace Sys2Proof.Machine

/-- A word whose opcode is not in the table: the operand check and the advance come first, then the fault
InvalidOpcode (40_cycle.md R105 to R107, 60_exceptions.md R202). -/
def illegalWord (w : Word) (s : State) : Result :=
  checkOperand (operand w) s fun s1 => .next (s1.raise (.invalidOpcode (opcode w)))

/-- Decode and execute a fetched word (40_cycle.md R103 to R109). -/
def executeWord (w : Word) (s : State) : Result :=
  match decode w with
  | .ok i => exec i s
  | .error _ => illegalWord w s

/-- The fetch: the word at `pc`, none where `pc` is not below `N` (40_cycle.md R102). -/
def State.fetch (s : State) : Option Word :=
  s.memRead s.pc

/-- `cycle()` (40_cycle.md R110). The stop request, seen at the top, cancels the cycle: `halted`, no fetch, no notice
(60_exceptions.md R211); a fetch past the end is the fault FetchOutOfRange (R205). -/
def cycle (s : State) : Result :=
  if s.stopReq then .next s.halt
  else
    match s.fetch with
    | none => .next (s.raise (.fetchOutOfRange s.pc))
    | some w => executeWord w s.beginCycle

/-- One `step` request (40_cycle.md R113, R115): nothing where the run has ended; a READ that waits goes on with the
lines that have come, and the stop request is not looked at (41_io.md R136); else one cycle. -/
def stepRequest (s : State) : Result :=
  if s.active then
    match s.fsm with
    | .waitInput a => awaitLine a s.input s
    | _ => cycle s
  else .next s

/-- The state with a word at the address of the next fetch and in every other respect able to perform a cycle, so that
the next step fetches that word (log entry 19). From a state that can already perform a cycle only the cell changes. -/
def State.withNextWord (s : State) (w : Word) : State :=
  let pc := if s.pc < Config.memoryLength then s.pc else 0
  { s with
    mem := s.mem.write pc w
    pc := pc
    halted := false
    fault := none
    fsm := match s.fsm with | .ready => .ready | _ => .running
    stopReq := false }

/-- `withNextWord` for an opcode table pattern; a pattern that spells no word stores nothing (log entry 8). -/
def State.withTableWord (s : State) (nbits w : Nat) : State :=
  match tableWord nbits w with
  | .ok v => s.withNextWord v
  | .error _ => s

end Sys2Proof.Machine
end

