-- ==== Sys2Proof/Machine/Step.lean ====
section
/-! DEFINITION. The step of the model: one `step` request of the host (40_cycle.md R113). -/

namespace Sys2Proof.Machine

/-- One `step` request (40_cycle.md R113). -/
def step (s : State) : Host.Outcome State Fault Refusal :=
  stepRequest s

/-- The state with an opcode table pattern stored where `step` fetches its next instruction. -/
def State.withFetchWord (s : State) (nbits w : Nat) : State :=
  s.withTableWord nbits w

end Sys2Proof.Machine
end

