-- ==== Sys2Proof/Machine/Loader.lean ====
section
/-! DEFINITION. The program loader, the host's boot procedure (70_reset_and_hazards.md R238 to R248). -/

namespace Sys2Proof.Machine

/-- A loader error (60_exceptions.md R200, R212): it is never latched in `State.fault`. -/
inductive LoadError where
  /-- A line that is no word; the line as it stands in the source (70_reset_and_hazards.md R243; log entry 20). -/
  | invalidWord (line : Text)
  /-- More lines than memory has words (70_reset_and_hazards.md R239). -/
  | programTooLarge
  /-- No word has the HALT opcode (70_reset_and_hazards.md R244). -/
  | noHaltInstruction
deriving DecidableEq, Repr

/-- The number of a cause (60_exceptions.md R200, decision D9). -/
def LoadError.code : LoadError → Nat
  | .invalidWord _ => 1
  | .programTooLarge => 4
  | .noHaltInstruction => 5

/-- LEGACY_OPCODES (70_reset_and_hazards.md R242, the spec's decision D18; log entry 17). -/
def legacyOpcodes : List Text :=
  [['1', '0'], ['1', '1'], ['2', '0'], ['2', '1'], ['3', '0'], ['3', '1'], ['3', '2'], ['3', '3'], ['4', '0'],
    ['4', '1'], ['4', '2'], ['4', '3']]

/-- Legacy migration of a line of five characters, textual and before validation; any other line as it is
(70_reset_and_hazards.md R240, R241). -/
def migrate : Text → Text
  | [c0, c1, c2, c3, c4] =>
    if [c1, c2] ∈ legacyOpcodes then [c0, '0', c1, c2, '0', c3, c4] else [c0, '0', '0', c1, c2, c3, c4]
  | t => t

/-- The words of the source lines, in line order; the first line that is no word after migration decides
(70_reset_and_hazards.md R240, R241, R243). -/
def validateLines : List Text → Except LoadError (List Word)
  | [] => .ok []
  | t :: rest =>
    match Word.ofText? (migrate t) with
    | none => .error (.invalidWord t)
    | some w =>
      match validateLines rest with
      | .ok ws => .ok (w :: ws)
      | .error e => .error e

/-- A word with the HALT opcode; its sign and operand digits are not looked at (70_reset_and_hazards.md R244). -/
def isHaltWord (w : Word) : Bool :=
  opcode w == 43

/-- The image of a program, or the first error in the order size, lines, HALT (70_reset_and_hazards.md R239, R243 to
R245). -/
def checkProgram (lines : List Text) : Except LoadError (List Word) :=
  if Config.memoryLength < lines.length then .error .programTooLarge
  else
    match validateLines lines with
    | .error e => .error e
    | .ok ws => if ws.any isHaltWord then .ok ws else .error .noHaltInstruction

/-- The words of an image written to the cells from `a` on, in order (70_reset_and_hazards.md R245). -/
def writeImage (a : Nat) : List Word → Memory → Memory
  | [], m => m
  | w :: ws, m => writeImage (a + 1) ws (m.write a w)

/-- Install: the core is reset, then cell `i` takes word `i` of the image (70_reset_and_hazards.md R245). -/
def State.install (s : State) (image : List Word) : State :=
  { s.resetCore with mem := writeImage 0 image s.resetCore.mem }

/-- `load`: the core with the image installed, or an error and nothing installed (70_reset_and_hazards.md R245). -/
def State.load (s : State) (lines : List Text) : Except LoadError State :=
  match checkProgram lines with
  | .ok image => .ok (s.install image)
  | .error e => .error e

/-- A character that ends a line of a multi-line text; the spec names none (log entry 9). -/
def endsLine (c : Char) : Bool :=
  c == '\n' || c == '\r'

/-- White space within a line; the spec names no characters (log entry 9). -/
def isSpace (c : Char) : Bool :=
  c == ' ' || c == '\t'

/-- A text cut into lines, the terminators left out; `line` is what the current line holds so far
(70_reset_and_hazards.md R247). -/
def splitLines (line : Text) : Text → List Text
  | [] => [line]
  | c :: cs => if endsLine c then line :: splitLines [] cs else splitLines (line ++ [c]) cs

/-- A blank line: empty, or white space only (70_reset_and_hazards.md R247). -/
def isBlank (t : Text) : Bool :=
  t.all isSpace

/-- `load_from_text`: the lines of a text, blank ones skipped, loaded as `load` loads them (70_reset_and_hazards.md
R247). -/
def State.loadFromText (s : State) (raw : Text) : Except LoadError State :=
  s.load ((splitLines [] raw).filter fun t => !isBlank t)

/-- `force_load`: migration alone, for an editor's buffer; nothing of it reaches memory (70_reset_and_hazards.md
R246). -/
def forceLoad (lines : List Text) : List Text :=
  lines.map migrate

end Sys2Proof.Machine
end

