-- ==== Sys2Proof/Machine/HostControl.lean ====
section
/-! DEFINITION. What the host can do to the core: control, input and observation (10_state.md R36 to R43,
70_reset_and_hazards.md R235). -/

namespace Sys2Proof.Machine

/-- A host event (10_state.md R37, R40). `run` is `runFor`. -/
inductive HostEvent where
  | reset
  | load (lines : List Text)
  | loadFromText (raw : Text)
  | step
  /-- The host sets the level of `stop_req`. The spec names only the raising of it (60_exceptions.md R211,
  70_reset_and_hazards.md R235); that the host can also lower it is the model's choice (DESIGN CHOICE, log entry 23). -/
  | stop (level : Bool)
  /-- The host supplies one input line. -/
  | line (t : Text)
deriving DecidableEq, Repr

/-- What a host event does. A load that fails leaves the core as it was (70_reset_and_hazards.md R245). A line that
comes while a READ waits is taken at once (10_state.md R32); any other line waits at the port (log entry 2). The level of
`stop_req` is set either way, so that a raised request can be withdrawn before a cycle sees it (DESIGN CHOICE, log
entry 23). -/
def hostEvent (e : HostEvent) (s : State) : Result :=
  match e with
  | .reset => .next s.resetCore
  | .load lines =>
    match s.load lines with
    | .ok t => .next t
    | .error _ => .next s
  | .loadFromText raw =>
    match s.loadFromText raw with
    | .ok t => .next t
    | .error _ => .next s
  | .step => step s
  | .stop level => .next { s with stopReq := level }
  | .line t =>
    match s.fsm with
    | .waitInput a => awaitLine a (s.input ++ [t]) s
    | _ => .next { s with input := s.input ++ [t] }

/-- Whether `run` performs another cycle: not after a halt or a fault, and not while a READ waits with no line at the
port (40_cycle.md R112). -/
def State.runs (s : State) : Bool :=
  s.active && !(s.waits && s.input.isEmpty)

/-- `run` for at most `k` cycles (40_cycle.md R112). The machine has no cycle limit (R117): the bound is the model's
argument, not the machine's. -/
def runFor : Nat → State → Result
  | 0, s => .next s
  | k + 1, s =>
    if s.runs then
      match stepRequest s with
      | .next t => runFor k t
      | .fault r => .fault r
      | .refused r => .refused r
    else .next s

/-- The result of a step (10_state.md R38). -/
inductive StepResult where
  | continuing
  | halted
  | fault (f : EngineFault)
deriving DecidableEq, Repr

/-- The step result the host reads from the state a step leaves; none while a READ waits, because that step has not
returned (10_state.md R38, 40_cycle.md R113; log entry 22). -/
def State.stepResult (s : State) : Option StepResult :=
  match s.fault with
  | some f => some (.fault f)
  | none =>
    if s.halted then some .halted else if s.waits then none else some .continuing

/-- What the host sees of the core (10_state.md R39). -/
structure Observation where
  cells : List Text
  acc : Int
  pc : Nat
  halted : Bool
  fault : Option EngineFault
  fsm : Fsm
deriving DecidableEq, Repr

/-- The text of a cell as the host reads it, none where there is no such cell (10_state.md R39). -/
def State.cellText (s : State) (a : Nat) : Option Text :=
  (s.memRead a).map Word.text

/-- The value of a cell as the host reads it, none where there is no such cell (10_state.md R39). -/
def State.cellValue (s : State) (a : Nat) : Option Int :=
  (s.memRead a).map Word.toInt

/-- The observation of the core: every cell's text, the registers and the control state (10_state.md R39). -/
def State.observe (s : State) : Observation where
  cells := (List.range Config.memoryLength).map fun a => (s.mem.read a).text
  acc := s.acc
  pc := s.pc
  halted := s.halted
  fault := s.fault
  fsm := s.fsm

/-- The lines and the notice the host has got through the output port, without the input requests (41_io.md R133). -/
def State.output (s : State) : List PortEvent :=
  s.events.filter fun e => e != .inputRequest

end Sys2Proof.Machine
end

