-- ==== Sys2Proof/Safety.lean ====
section
/-! DEFINITION. The states a run can reach, the ends of a run, and what a safe run is (10_state.md R23, R26, R31,
20_memory.md R61, 70_reset_and_hazards.md R236). -/

namespace Sys2Proof.Machine

/-- How the FSM state hangs together with the rest (10_state.md R31): Faulted iff a fault is latched, else Halted iff
`halted`, else WaitInput iff a READ cycle waits, with `pc` one past that READ (41_io.md R136), else Ready, in which `pc`
and `acc` are 0 and no cycle has begun, or Running. A halted machine has no fault latched, because neither is left but by
reset. -/
def State.fsmCoherent (s : State) : Bool :=
  match s.fsm with
  | .ready => !s.halted && s.fault.isNone && s.pc == 0 && s.acc == 0
  | .running => !s.halted && s.fault.isNone
  | .waitInput a =>
    !s.halted && s.fault.isNone && decide (a < Config.memoryLength) && decide (0 < s.pc) &&
      opcode (s.mem.read (s.pc - 1)) == 10 && operand (s.mem.read (s.pc - 1)) == a
  | .halted => s.halted && s.fault.isNone
  | .faulted => !s.halted && s.fault.isSome

/-- The invariant of the machine: memory in its canonical form (20_memory.md R58, R61), `|acc| < M` (10_state.md R23),
`pc` at most `N` (R26), and the FSM state coherent (R31). -/
abbrev State.inv (s : State) : Prop :=
  s.mem.wf ∧ s.accInRange ∧ s.pc ≤ Config.memoryLength ∧ s.fsmCoherent = true

/-- The state can perform a cycle now: no fault, not halted, no READ waiting (40_cycle.md R100). -/
abbrev State.canCycle (s : State) : Prop :=
  s.active = true ∧ s.waits = false

/-- The cycle the state performs next is a HALT cycle: the stop request is low and the word at `pc` has opcode 043
(44_control.md R185). -/
abbrev State.haltsNext (s : State) : Prop :=
  s.canCycle ∧ s.stopReq = false ∧ s.fetch.map opcode = some 43

/-- The ends of a run (70_reset_and_hazards.md R236), told from the state in which no further cycle is performed. The two
kinds of halt are told apart by `successfulEnd`. -/
inductive RunEnd where
  | halted
  | faulted (f : EngineFault)
  | waiting
  | none
deriving DecidableEq, Repr

/-- Which end a state is, `none` where another cycle is performed (70_reset_and_hazards.md R236). -/
def State.runEnd (s : State) : RunEnd :=
  match s.fault with
  | some f => .faulted f
  | Option.none => if s.halted then .halted else if s.runs then .none else .waiting

/-- The only successful end: a run of `k` cycles leads to a state whose next cycle is a HALT cycle, and that cycle leads
to `t` (70_reset_and_hazards.md R236). -/
def successfulEnd (s t : State) : Prop :=
  ∃ k u, runFor k s = .next u ∧ u.haltsNext ∧ step u = .next t

/-- A safe run of `k` cycles: at every cycle the machine has a state with no fault latched (60_exceptions.md R209: a
faulted state is never a successful end). -/
def safeRun (k : Nat) (s : State) : Prop :=
  ∀ j, j ≤ k → ∃ t, runFor j s = .next t ∧ t.fault = Option.none

end Sys2Proof.Machine
end

