-- ==== Sys2Proof/Certificates/Slice0/Obligations.lean ====
section
/-! DEFINITION. The statements for the provers. Each docstring names the rule or section of spec/ it formalises; a
statement that rests on a decision the spec marks as its own says so. An equation `exec i s = .next { s with … }` says
the whole frame: every field not named is unchanged. -/

open Sys2Proof Sys2Proof.Machine

/-! ### Encoding -/

/-- Decoding an encoded well-formed instruction gives it back (30_encoding.md sections 1 and 2). -/
def Obligations.DecodeEncodeAgree : Prop :=
  ∀ i : Instr, i.wellFormed = true → decode (encode i) = .ok i

/-- The closed opcode table (30_encoding.md R84): each row's words, of either sign, decode to that row's operation with
the operand field as its operand (none for HALT), and a word whose opcode is no row of the table decodes to nothing. -/
def Obligations.OpcodeTableDecodes : Prop :=
  (∀ (sg : Sign) (a : Nat), a < Config.operandValues →
    decode (instrWord sg 10 a) = .ok (.read a) ∧ decode (instrWord sg 11 a) = .ok (.write a) ∧
    decode (instrWord sg 20 a) = .ok (.load a) ∧ decode (instrWord sg 21 a) = .ok (.store a) ∧
    decode (instrWord sg 30 a) = .ok (.add a) ∧ decode (instrWord sg 31 a) = .ok (.subtract a) ∧
    decode (instrWord sg 32 a) = .ok (.divide a) ∧ decode (instrWord sg 33 a) = .ok (.multiply a) ∧
    decode (instrWord sg 40 a) = .ok (.branch a) ∧ decode (instrWord sg 41 a) = .ok (.branchNeg a) ∧
    decode (instrWord sg 42 a) = .ok (.branchZero a) ∧ decode (instrWord sg 43 a) = .ok .halt) ∧
  ∀ w : Word, opcode w ∉ [10, 11, 20, 21, 30, 31, 32, 33, 40, 41, 42, 43] →
    decode w = .error (.illegalOpcode (opcode w))

/-- What the decoder answers is a well-formed instruction that carries the word's own opcode and operand, and the
decoder does not look at the sign (30_encoding.md sections 1 and 2; the sign is the spec's decision D3, log entry 12). -/
def Obligations.DecodedInstructionCarriesFields : Prop :=
  ∀ (w : Word) (i : Instr), decode w = .ok i →
    i.wellFormed = true ∧ i.opcode = opcode w ∧ (∀ a, i.operand? = some a → a = operand w) ∧
      (i.operand? = none → i = .halt) ∧ ∀ sg, decode ⟨sg, w.mag⟩ = .ok i

/-- A few words written out from the spec's vectors V-D1 to V-D12 decode to what the vectors say (a sanity statement). -/
def Obligations.KnownWordsDecode : Prop :=
  decode ⟨.plus, 010007⟩ = .ok (.read 7) ∧ decode ⟨.minus, 010007⟩ = .ok (.read 7) ∧
    decode ⟨.plus, 020249⟩ = .ok (.load 249) ∧ decode ⟨.plus, 043999⟩ = .ok .halt ∧
    decode ⟨.plus, 0⟩ = .error (.illegalOpcode 0) ∧ decode ⟨.plus, 100007⟩ = .error (.illegalOpcode 100)

/-- The two fields of a word stand in its text: the sign, the three opcode digits, the three operand digits
(30_encoding.md section 1, format W); and they determine the word. -/
def Obligations.WordTextIsSignOpcodeOperand : Prop :=
  ∀ w : Word,
    w.text = signChar w.sign :: (digitsText 3 (opcode w) ++ digitsText 3 (operand w)) ∧
      instrWord w.sign (opcode w) (operand w) = w

/-- The text of a word and the word it spells determine each other (20_memory.md section 1, 70_reset_and_hazards.md
section 2, word validation): a line is the text of a word exactly if the loader's validator reads it as that word. -/
def Obligations.WordTextRoundTrip : Prop :=
  ∀ (t : Text) (w : Word), Word.ofText? t = some w ↔ t = w.text

/-- The loader's validity rule (70_reset_and_hazards.md section 2, word validation): seven characters, the first a sign,
the other six each one of 0..9. -/
def Obligations.LoaderAcceptsExactlySignAndSixDigits : Prop :=
  ∀ t : Text,
    (∃ w, Word.ofText? t = some w) ↔
      ∃ c ds, t = c :: ds ∧ (c = '+' ∨ c = '-') ∧ ds.length = 6 ∧
        ∀ d ∈ ds, d ∈ ['0', '1', '2', '3', '4', '5', '6', '7', '8', '9']

/-- The physical layout (30_encoding.md section 2, the spec's own optional layout, decision D2, log entry 8): a word is
read back from its pattern, and the mask and match of the opcode table select its opcode field. -/
def Obligations.BcdLayoutRoundTrip : Prop :=
  (∀ w : Word, Word.ofBcd w.toBcd = .ok w) ∧
    ∀ i : Instr, i.wellFormed = true → (encode i).toBcd &&& 0x0FFF000#25 =
      match i with
      | .read _ => 0x0010000#25
      | .write _ => 0x0011000#25
      | .load _ => 0x0020000#25
      | .store _ => 0x0021000#25
      | .add _ => 0x0030000#25
      | .subtract _ => 0x0031000#25
      | .divide _ => 0x0032000#25
      | .multiply _ => 0x0033000#25
      | .branch _ => 0x0040000#25
      | .branchNeg _ => 0x0041000#25
      | .branchZero _ => 0x0042000#25
      | .halt => 0x0043000#25

/-! ### Words and the overflow unit -/

/-- The codec round trip (20_memory.md section 1): decode after encode is the value; encode after decode is the word,
but for `-000000`, which becomes `+000000`. -/
def Obligations.CodecRoundTrip : Prop :=
  (∀ v : Int, v.natAbs < Config.wordModulus → (Word.ofInt v).toInt = v) ∧
    (∀ w : Word, w ≠ ⟨.minus, 0⟩ → Word.ofInt w.toInt = w) ∧
    Word.ofInt (Word.toInt ⟨.minus, 0⟩) = ⟨.plus, 0⟩

/-- Encode (20_memory.md R51): sign `+` for a value >= 0 and `-` below, the digits of the magnitude zero-padded to
exactly the width; the word the engine makes of a value is that text at `L` digits; 0 gives `+000000`. -/
def Obligations.EncodeWritesSignAndPaddedDigits : Prop :=
  (∀ (v : Int) (width : Nat), v.natAbs < 10 ^ width →
    ∃ ds : Text, encodeText v width = (if 0 ≤ v then '+' else '-') :: ds ∧ ds.length = width ∧
      parseDigits 0 ds = some v.natAbs) ∧
    (∀ v : Int, v.natAbs < Config.wordModulus → (Word.ofInt v).text = encodeText v Config.wordLength) ∧
    (Word.ofInt 0).text = ['+', '0', '0', '0', '0', '0', '0']

/-- A line that WRITE prints is a line READ accepts, with the word's value (20_memory.md section 1, the line grammar
being the spec's decision D12, log entry 16). -/
def Obligations.PrintedWordReadsBack : Prop :=
  ∀ w : Word, isValidWord w.text = true ∧ acceptedValue w.text = some w.toInt

/-- The overflow unit (40_cycle.md R108): a magnitude below `10^L` stays; else the low-order `L` digits with the sign kept;
in one formula `sgn(v) * (|v| mod 10^L)`, at every width; this hardware's `truncate` is that at 6 digits. -/
def Obligations.TruncateKeepsSignAndLowDigits : Prop :=
  (∀ (width : Nat) (v : Int),
    (v.natAbs < 10 ^ width → truncateTo width v = v) ∧
      truncateTo width v = v.sign * ((v.natAbs % 10 ^ width : Nat) : Int)) ∧
    ∀ v : Int, truncate v = v.sign * ((v.natAbs % Config.wordModulus : Nat) : Int)

/-- Truncation composes for products, and for sums of one sign (43_arithmetic.md section 3, item (d)). -/
def Obligations.TruncationComposes : Prop :=
  (∀ x y : Int, truncate (truncate x * y) = truncate (x * y)) ∧
    ∀ x y : Int, (0 ≤ x ∧ 0 ≤ y) ∨ (x ≤ 0 ∧ y ≤ 0) → truncate (truncate x + y) = truncate (x + y)

/-- DIVIDE's quotient rounds toward zero at every sign combination (43_arithmetic.md section 3): it is the truncating
quotient of the integers, the remainder is smaller than the divisor and has the dividend's sign or is 0, and the
quotient is no larger than the dividend. -/
def Obligations.QuotientRoundsTowardZero : Prop :=
  ∀ n m : Int, m ≠ 0 →
    quotient n m = n.tdiv m ∧ (quotient n m).natAbs ≤ n.natAbs ∧
      ∃ r : Int, n = quotient n m * m + r ∧ r.natAbs < m.natAbs ∧ (r = 0 ∨ r.sign = n.sign)

/-! ### Load and store -/

/-- LOAD (42_load_store.md R150): the accumulator takes the value of the cell, whose magnitude is below `M`; `pc` advances;
nothing else changes. -/
def Obligations.LoadSetsAccumulator : Prop :=
  ∀ (s : State) (a : Nat), a < Config.memoryLength →
    (∀ sg, decode (instrWord sg 20 a) = .ok (.load a)) ∧
      exec (.load a) s = .next { s with pc := s.pc + 1, acc := (s.mem.read a).toInt } ∧
      (s.mem.read a).toInt.natAbs < Config.wordModulus

/-- STORE (42_load_store.md R151): the cell the operand names takes the accumulator encoded, whose value is the
accumulator's, never `-000000`; every other address reads as before; `pc` advances; nothing else changes. -/
def Obligations.StoreWritesEncodedAccumulator : Prop :=
  ∀ (s : State) (a : Nat), a < Config.memoryLength → s.accInRange →
    (∀ sg, decode (instrWord sg 21 a) = .ok (.store a)) ∧
      ∃ t, exec (.store a) s = .next t ∧ t.mem.read a = Word.ofInt s.acc ∧ (t.mem.read a).toInt = s.acc ∧
        t.mem.read a ≠ ⟨.minus, 0⟩ ∧ (∀ b, b ≠ a → t.mem.read b = s.mem.read b) ∧
        t = { s with pc := s.pc + 1, mem := t.mem }

/-- STORE then LOAD (42_load_store.md R152): any later LOAD of the cell, with the cell as the STORE left it, gives the
accumulator the value it had at the STORE. -/
def Obligations.StoreThenLoadRoundTrips : Prop :=
  ∀ (s t u : State) (a : Nat), a < Config.memoryLength → s.accInRange →
    exec (.store a) s = .next t → u.mem.read a = t.mem.read a →
    ∃ v, exec (.load a) u = .next v ∧ v.acc = s.acc

/-! ### Arithmetic -/

/-- ADD (43_arithmetic.md R162): the exact sum, cut once: where its magnitude reaches `M` the result is the sum less `M`
or, for a negative sum, plus `M`; `pc` advances; nothing else changes. -/
def Obligations.AddCutsExactSum : Prop :=
  ∀ (s : State) (a : Nat) (x : Int), a < Config.memoryLength → s.accInRange → x = s.acc + (s.mem.read a).toInt →
    (∀ sg, decode (instrWord sg 30 a) = .ok (.add a)) ∧
      exec (.add a) s = .next { s with
        pc := s.pc + 1
        acc := if x.natAbs < 1000000 then x else if 0 < x then x - 1000000 else x + 1000000 } ∧
      truncate x = if x.natAbs < 1000000 then x else if 0 < x then x - 1000000 else x + 1000000

/-- SUBTRACT (43_arithmetic.md R163): the exact difference accumulator minus cell, cut once; `pc` advances; nothing else
changes. -/
def Obligations.SubtractCutsExactDifference : Prop :=
  ∀ (s : State) (a : Nat) (x : Int), a < Config.memoryLength → s.accInRange → x = s.acc - (s.mem.read a).toInt →
    (∀ sg, decode (instrWord sg 31 a) = .ok (.subtract a)) ∧
      exec (.subtract a) s = .next { s with
        pc := s.pc + 1
        acc := if x.natAbs < 1000000 then x else if 0 < x then x - 1000000 else x + 1000000 } ∧
      truncate x = if x.natAbs < 1000000 then x else if 0 < x then x - 1000000 else x + 1000000

/-- DIVIDE (43_arithmetic.md R164): for a divisor other than 0 the accumulator takes the quotient truncated toward zero,
which never overflows; for a divisor of value 0, `-000000` included, the fault DivideByZero, with `pc` advanced and the
accumulator and memory as they were; nothing else changes. -/
def Obligations.DivideTruncatesOrFaults : Prop :=
  ∀ (s : State) (a : Nat), a < Config.memoryLength → s.accInRange →
    (∀ sg, decode (instrWord sg 32 a) = .ok (.divide a)) ∧
      ((s.mem.read a).toInt ≠ 0 →
        exec (.divide a) s = .next { s with pc := s.pc + 1, acc := s.acc.tdiv (s.mem.read a).toInt }) ∧
      ((s.mem.read a).toInt = 0 →
        exec (.divide a) s = .next (State.raise { s with pc := s.pc + 1 } .divideByZero))

/-- MULTIPLY (43_arithmetic.md R165): the sign of the exact product and the low-order digits of its magnitude; `pc`
advances; nothing else changes. -/
def Obligations.MultiplyCutsExactProduct : Prop :=
  ∀ (s : State) (a : Nat), a < Config.memoryLength →
    (∀ sg, decode (instrWord sg 33 a) = .ok (.multiply a)) ∧
      exec (.multiply a) s = .next { s with
        pc := s.pc + 1
        acc := s.acc.sign * (s.mem.read a).toInt.sign *
          ((s.acc.natAbs * (s.mem.read a).toInt.natAbs % 1000000 : Nat) : Int) } ∧
      truncate (s.acc * (s.mem.read a).toInt) = s.acc.sign * (s.mem.read a).toInt.sign *
        ((s.acc.natAbs * (s.mem.read a).toInt.natAbs % 1000000 : Nat) : Int)

/-! ### Input and output -/

/-- READ (41_io.md section 2): the lines before the first valid one are dropped and asked for again, the valid line's value
is stored re-encoded in the cell the operand names; every other address reads as before; the accumulator stays, `pc`
advances. The request events are the spec's decision D13. -/
def Obligations.ReadStoresFirstValidLine : Prop :=
  ∀ (s : State) (a : Nat) (bad rest : List Text) (line : Text) (v : Int),
    a < Config.memoryLength → s.accInRange → s.input = bad ++ line :: rest →
    (∀ l ∈ bad, isValidWord l = false) → acceptedValue line = some v →
    (∀ sg, decode (instrWord sg 10 a) = .ok (.read a)) ∧
      ∃ t, exec (.read a) s = .next t ∧ t.mem.read a = Word.ofInt v ∧ (t.mem.read a).toInt = v ∧
        (∀ b, b ≠ a → t.mem.read b = s.mem.read b) ∧
        t = { s with
          pc := s.pc + 1
          mem := t.mem
          fsm := .running
          input := rest
          events := s.events ++ List.replicate (bad.length + 1) .inputRequest }

/-- READ with no valid line at the port waits (41_io.md section 2; WaitInput is the spec's decision D8, the requests D13):
every line is consumed and asked for again, `pc` has advanced, the cell is not written, nothing else changes. -/
def Obligations.ReadWaitsForValidLine : Prop :=
  ∀ (s : State) (a : Nat), a < Config.memoryLength → (∀ l ∈ s.input, isValidWord l = false) →
    exec (.read a) s = .next { s with
      pc := s.pc + 1
      fsm := .waitInput a
      input := []
      events := s.events ++ List.replicate (s.input.length + 1) .inputRequest }

/-- A line that comes in WaitInput (10_state.md section 6, the transition table, decision D8): a valid one completes the
READ, an invalid one is dropped and asked for again. The stop request is not looked at (41_io.md section 2, decision
D11): `s.stopReq` is not constrained. -/
def Obligations.LineEndsOrProlongsWait : Prop :=
  ∀ (s : State) (a : Nat) (line : Text),
    s.inv → s.fsm = .waitInput a → s.input = [] →
    (∀ v, acceptedValue line = some v →
      ∃ t, hostEvent (.line line) s = .next t ∧ t.mem.read a = Word.ofInt v ∧
        (∀ b, b ≠ a → t.mem.read b = s.mem.read b) ∧ t = { s with mem := t.mem, fsm := .running }) ∧
      (isValidWord line = false →
        hostEvent (.line line) s = .next { s with events := s.events ++ [.inputRequest] })

/-- While a READ waits and no line has come, a step changes nothing, for as long as it takes (41_io.md section 1,
decision D14). -/
def Obligations.WaitWithoutLineChangesNothing : Prop :=
  ∀ (s : State) (a k : Nat), s.fsm = .waitInput a → s.input = [] → Host.Core.run core k s = .next s

/-- WRITE (41_io.md R137): one event with the text of the cell, which the port frames with the line terminator; `pc`
advances; nothing else changes. -/
def Obligations.WriteEmitsCellText : Prop :=
  ∀ (s : State) (a : Nat), a < Config.memoryLength → s.accInRange →
    (∀ sg, decode (instrWord sg 11 a) = .ok (.write a)) ∧
      exec (.write a) s =
        .next { s with pc := s.pc + 1, events := s.events ++ [.word (s.mem.read a).text] } ∧
      (PortEvent.word (s.mem.read a).text).framed = (s.mem.read a).text ++ Config.lineTerminator

/-! ### Control -/

/-- BRANCH (44_control.md R181): `pc` takes the operand; nothing else changes. -/
def Obligations.BranchSetsProgramCounter : Prop :=
  ∀ (s : State) (a : Nat), a < Config.memoryLength → s.accInRange →
    (∀ sg, decode (instrWord sg 40 a) = .ok (.branch a)) ∧ exec (.branch a) s = .next { s with pc := a }

/-- BRANCH-NEG (44_control.md R182): `pc` takes the operand iff the accumulator is below 0, else the advanced `pc` stands;
nothing else changes. -/
def Obligations.BranchNegTakenIffNegative : Prop :=
  ∀ (s : State) (a : Nat), a < Config.memoryLength → s.accInRange →
    (∀ sg, decode (instrWord sg 41 a) = .ok (.branchNeg a)) ∧
      exec (.branchNeg a) s = .next { s with pc := if s.acc < 0 then a else s.pc + 1 }

/-- BRANCH-ZERO (44_control.md R183): `pc` takes the operand iff the accumulator is 0, else the advanced `pc` stands;
nothing else changes. -/
def Obligations.BranchZeroTakenIffZero : Prop :=
  ∀ (s : State) (a : Nat), a < Config.memoryLength → s.accInRange →
    (∀ sg, decode (instrWord sg 42 a) = .ok (.branchZero a)) ∧
      exec (.branchZero a) s = .next { s with pc := if s.acc = 0 then a else s.pc + 1 }

/-- HALT (44_control.md section 3, the order and the step-mode notice being the spec's decisions D4 and D5, log entry
13): whatever its operand digits, it sets `halted`, advances `pc` and emits one notice; nothing else changes. -/
def Obligations.HaltStopsWithNotice : Prop :=
  (∀ (sg : Sign) (x : Nat), x < Config.operandValues → decode (instrWord sg 43 x) = .ok .halt) ∧
    ∀ s : State, exec .halt s = .next { s with
      halted := true
      fsm := .halted
      pc := s.pc + 1
      events := s.events ++ [.haltNotice] }

/-- The branch unit taken alone (44_control.md section 1): a target below 0 or not below `N` is InvalidMemoryAddress with
`pc` as it was, taken or not; a legal target never is. -/
def Obligations.BranchUnitChecksTarget : Prop :=
  ∀ (s : State) (target : Int) (taken : Bool),
    ((target < 0 ∨ 250 ≤ target) →
      branchUnit target taken s = .next (s.raise (.invalidMemoryAddress target))) ∧
      ((0 ≤ target ∧ target < 250) → ∃ t, branchUnit target taken s = .next t ∧ t.fault = s.fault ∧
        (t.pc : Int) = if taken then target else s.pc)

/-! ### The step, faults and the stop request -/

/-- A step runs the decoded instruction (40_cycle.md section 3): where the machine can perform a cycle, no stop request
stands and the word at `pc` decodes, the step is `exec` of the instruction on the state with the FSM in Running; `exec`
itself does the operand check, the advance of `pc`, the operation and the truncation. -/
def Obligations.StepRunsDecodedInstruction : Prop :=
  ∀ (s : State) (w : Word) (i : Instr), s.canCycle → s.stopReq = false → s.fetch = some w → decode w = .ok i →
    i.wellFormed = true ∧ step s = exec i { s with fsm := .running }

/-- The operand check (40_cycle.md R105): whatever the opcode, legal or not, but for 043, an operand not below `N` raises
InvalidMemoryAddress before `pc` advances, before the opcode is looked up, before input is asked for; an operand below `N`
does not. -/
def Obligations.OperandOutOfRangeFaults : Prop :=
  ∀ (s : State) (w : Word), s.canCycle → s.stopReq = false → s.fetch = some w →
    opcode w ≠ 43 →
    (Config.memoryLength ≤ operand w → step s = .next (s.raise (.invalidMemoryAddress (operand w)))) ∧
      (operand w < Config.memoryLength → ∀ (t : State) (x : Int), step s = .next t →
        t.fault ≠ some (.invalidMemoryAddress x))

/-- InvalidOpcode (60_exceptions.md R202): an opcode that is none of the twelve, with an operand that passes the check,
raises InvalidOpcode with the opcode recorded; `pc` has advanced. -/
def Obligations.UnknownOpcodeFaults : Prop :=
  ∀ (s : State) (w : Word), s.canCycle → s.stopReq = false → s.fetch = some w →
    opcode w ∉ [10, 11, 20, 21, 30, 31, 32, 33, 40, 41, 42, 43] → operand w < Config.memoryLength →
    step s = .next (State.raise { s with pc := s.pc + 1 } (.invalidOpcode (opcode w)))

/-- A fetch past the end (60_exceptions.md section 1; the spec's decision D7): FetchOutOfRange with `pc` recorded and
unchanged. -/
def Obligations.FetchPastEndFaults : Prop :=
  ∀ s : State, s.canCycle → s.stopReq = false → Config.memoryLength ≤ s.pc →
    step s = .next (s.raise (.fetchOutOfRange s.pc))

/-- Taking a fault (60_exceptions.md section 2; the latch is the spec's decision D8, log entry 5): the latch takes the cause
and its value, the FSM goes to Faulted, nothing else changes, and no later step changes anything. -/
def Obligations.RaiseLatchesFaultForGood : Prop :=
  ∀ (s : State) (f : EngineFault) (k : Nat),
    s.raise f = { s with fault := some f, fsm := .faulted } ∧
      Host.Core.run core k (s.raise f) = .next (s.raise f) ∧ (s.raise f).stepResult = some (.fault f)

/-- Faults are precise (60_exceptions.md section 2; the latch is decision D8, FetchOutOfRange D7): a step that latches a
fault leaves memory, the accumulator, `halted`, the input and the output as they were, and `pc` unchanged or advanced by
one, as the cause says. -/
def Obligations.FaultsArePrecise : Prop :=
  ∀ (s t : State) (f : EngineFault), s.inv → s.fault = none → step s = .next t → t.fault = some f →
    t = { s with fault := some f, fsm := .faulted, pc := t.pc } ∧
      t.pc = (match f with
        | .invalidMemoryAddress _ => s.pc
        | .invalidOpcode _ => s.pc + 1
        | .divideByZero => s.pc + 1
        | .fetchOutOfRange _ => s.pc)

/-- After the end (40_cycle.md section 4, decision D10, log entry 14): a request while halted or faulted performs no cycle
and changes no state, any number of times; no second notice. -/
def Obligations.EndedMachineIgnoresRequests : Prop :=
  ∀ (s : State) (k : Nat), s.active = false → Host.Core.run core k s = .next s ∧ runFor k s = .next s

/-- Of the host's events only reset and a load that succeeds leave Halted or Faulted (60_exceptions.md section 2, decision
D8; 10_state.md section 5). That the host can lower `stop_req` as well as raise it is the model's choice (log entry 23). -/
def Obligations.OnlyResetOrLoadLeavesEnd : Prop :=
  ∀ (s t : State) (e : HostEvent), s.inv → s.active = false → hostEvent e s = .next t →
    t.active = true →
    e = .reset ∨ (∃ lines, e = .load lines ∧ s.load lines = .ok t) ∨
      ∃ raw, e = .loadFromText raw ∧ s.loadFromText raw = .ok t

/-- The stop request (60_exceptions.md section 3; the spec's decision D11, log entry 15): seen at the top of a cycle it sets
`halted` and nothing else; it is not looked at while a READ waits. -/
def Obligations.StopRequestSeenAtTopOfCycle : Prop :=
  (∀ s : State, s.canCycle → s.stopReq = true → step s = .next { s with halted := true, fsm := .halted }) ∧
    ∀ (s t : State) (a : Nat) (level : Bool), s.active = true → s.fsm = .waitInput a → step s = .next t →
      step { s with stopReq := level } = .next { t with stopReq := level }

/-- The result of a step (10_state.md section 8, decision D29): the fault where one is latched, Halted where `halted` is set,
none while a READ waits, else Continuing. -/
def Obligations.StepResultTellsOutcome : Prop :=
  ∀ s t : State, s.inv → step s = .next t →
    (∀ f, t.stepResult = some (.fault f) ↔ t.fault = some f) ∧
      (t.stepResult = some .halted ↔ t.halted = true) ∧
      (t.stepResult = none ↔ ∃ a, t.fsm = .waitInput a) ∧
      (t.stepResult = some .continuing → t.fsm = .running)

/-! ### The invariant -/

/-- Every step keeps the invariant: memory canonical, `|acc| < M`, `pc` at most `N`, the FSM state coherent (20_memory.md
section 2, 10_state.md sections 3, 4 and 6). -/
def Obligations.StepKeepsInvariant : Prop :=
  ∀ s t : State, s.inv → step s = .next t → t.inv

/-- From a state of the invariant a step always answers a next state: the machine is never stuck, and the memory
controller is never asked for a cell that does not exist (20_memory.md section 2). -/
def Obligations.StepAlwaysAnswers : Prop :=
  ∀ s : State, s.inv → ∃ t, step s = .next t

/-- Every event of the host keeps the invariant and is answered: reset, load, load_from_text, step, stop_req, an input line
(70_reset_and_hazards.md section 3, 10_state.md section 8). That the host can lower `stop_req` as well as raise it is the
model's choice (log entry 23). -/
def Obligations.HostEventsKeepInvariant : Prop :=
  ∀ (e : HostEvent) (s : State), s.inv → ∃ t, hostEvent e s = .next t ∧ t.inv

/-- The reset state meets the invariant. -/
def Obligations.ResetMeetsInvariant : Prop :=
  State.reset.inv

/-- What reset leaves (70_reset_and_hazards.md section 1; `fault` and `fsm` are the spec's decision D24, the streams and
`stop_req` stay, log entry 3): every cell `+000000`, `acc` 0, `pc` 0, not halted, no fault, Ready, from any state. -/
def Obligations.ResetLeavesInitialState : Prop :=
  ∀ s : State, ∃ t, hostEvent .reset s = .next t ∧ (∀ a, t.mem.read a = ⟨.plus, 0⟩) ∧ t.acc = 0 ∧ t.pc = 0 ∧
    t.halted = false ∧ t.fault = none ∧ t.fsm = .ready ∧ t.stopReq = s.stopReq ∧ t.input = s.input ∧
    t.events = s.events

/-- Two memories in the canonical form that read alike at every address are equal (log entry 1). -/
def Obligations.CanonicalMemoriesReadAlikeAreEqual : Prop :=
  ∀ m n : Memory, m.wf → n.wf → (∀ a, m.read a = n.read a) → m = n

/-! ### Whole-machine rules -/

/-- The word the next cycle fetches has an opcode of the list (the fetch being in range, no READ waiting). -/
abbrev Sys2Proof.Machine.State.nextOpcodeIn (s : State) (opcs : List Nat) : Prop :=
  s.canCycle ∧ s.stopReq = false ∧ ∃ w, s.fetch = some w ∧ opcode w ∈ opcs

/-- Only READ and STORE write memory, and only the cell their operand names (20_memory.md section 2). -/
def Obligations.OnlyReadAndStoreWriteMemory : Prop :=
  ∀ (s t : State) (b : Nat), s.inv → step s = .next t → t.mem.read b ≠ s.mem.read b →
    s.fsm = .waitInput b ∨ (s.nextOpcodeIn [10, 21] ∧ s.fetch.map operand = some b)

/-- Only LOAD and the four arithmetic instructions write the accumulator (10_state.md section 1). -/
def Obligations.OnlyLoadAndArithmeticWriteAccumulator : Prop :=
  ∀ s t : State, s.inv → step s = .next t → t.acc ≠ s.acc → s.nextOpcodeIn [20, 30, 31, 32, 33]

/-- How `pc` changes (10_state.md section 4): one of the three branches sets it to the operand, or it advances by one, or it
stays: no cycle begins, the stop request cancels it, or it faults on the operand check or on the fetch (the last two are
decisions D11 and D7). -/
def Obligations.ProgramCounterAdvancesOrBranches : Prop :=
  ∀ s t : State, s.inv → step s = .next t →
    (s.nextOpcodeIn [40, 41, 42] ∧ s.fetch.map operand = some t.pc) ∨
      (s.canCycle ∧ s.stopReq = false ∧ t.pc = s.pc + 1) ∨
      (t.pc = s.pc ∧ (¬ s.canCycle ∨ s.stopReq = true ∨ (∃ o, t.fault = some (.invalidMemoryAddress o)) ∨
        ∃ p, t.fault = some (.fetchOutOfRange p)))

/-- `halted` becomes true in exactly two ways, the HALT cycle and the stop request, and no step clears it (10_state.md
section 5; the stop request is the spec's decision D11). -/
def Obligations.HaltedOnlyByHaltOrStop : Prop :=
  ∀ s t : State, s.inv → step s = .next t →
    (s.halted = true → t = s) ∧
      (s.halted = false → (t.halted = true ↔ s.canCycle ∧ (s.stopReq = true ∨ s.haltsNext)))

/-- Output is never taken back, and a step emits at most one output event: the text of the cell for WRITE, the notice for
HALT, none for any other (41_io.md sections 1 and 3, 44_control.md section 3; the notice in step mode is decision D5). -/
def Obligations.OutputGrowsByWriteAndHalt : Prop :=
  ∀ s t : State, s.inv → step s = .next t →
    ∃ new, t.output = s.output ++ new ∧
      (new = [] ∨
        (∃ w, s.nextOpcodeIn [11] ∧ s.fetch = some w ∧ new = [.word (s.mem.read (operand w)).text]) ∨
        (s.haltsNext ∧ new = [.haltNotice]))

/-- Only a READ cycle looks at the input (10_state.md section 8): where the next cycle is no READ and none waits, a step does
the same whatever lines are at the port, and leaves them there. -/
def Obligations.OnlyReadLooksAtInput : Prop :=
  ∀ (s t : State) (lines : List Text), s.waits = false → s.fetch.map opcode ≠ some 10 →
    step s = .next t → t.input = s.input ∧ step { s with input := lines } = .next { t with input := lines }

/-- A stored word is the word a later fetch at that address sees, the very next one included (20_memory.md section 4,
70_reset_and_hazards.md section 4): where the next cycle is at the cell STORE wrote and no stop request stands, it runs the
new word. -/
def Obligations.FetchSeesStoredWord : Prop :=
  ∀ (s t : State) (a : Nat) (i : Instr), a < Config.memoryLength → s.accInRange → exec (.store a) s = .next t →
    t.pc = a → t.canCycle → t.stopReq = false → decode (Word.ofInt s.acc) = .ok i →
    step t = exec i { t with fsm := .running }

/-- Run mode and step mode are the same machine (40_cycle.md section 4): a run of at most `k` cycles goes to the same state,
with the same events, as `k` step requests. -/
def Obligations.RunModeEqualsStepMode : Prop :=
  ∀ (k : Nat) (s : State), runFor k s = Host.Core.run core k s

/-! ### The loader -/

/-- The size check comes first (70_reset_and_hazards.md R239): more than `N` lines is ProgramTooLarge whatever they hold;
`N` lines or fewer never is. -/
def Obligations.TooManyLinesRejectedFirst : Prop :=
  ∀ (s : State) (lines : List Text),
    s.load lines = .error .programTooLarge ↔ Config.memoryLength < lines.length

/-- The order of the loader's errors (70_reset_and_hazards.md section 2; that the first bad line decides is the spec's
decision D19): InvalidWord is for the first bad line of a program that is not too large; NoHaltInstruction is for a program
of valid lines none of which has opcode 043. That InvalidWord records the line as it stands before migration is the
model's inference, not the spec's words (log entry 20, DEDUCED). -/
def Obligations.LoaderErrorsInOrder : Prop :=
  ∀ (s : State) (lines : List Text),
    (∀ t, s.load lines = .error (.invalidWord t) ↔
      lines.length ≤ Config.memoryLength ∧ ∃ good rest, lines = good ++ t :: rest ∧
        Word.ofText? (migrate t) = none ∧ ∀ l ∈ good, Word.ofText? (migrate l) ≠ none) ∧
      (s.load lines = .error .noHaltInstruction ↔
        lines.length ≤ Config.memoryLength ∧
          ∀ l ∈ lines, ∃ w, Word.ofText? (migrate l) = some w ∧ opcode w ≠ 43)

/-- Install (70_reset_and_hazards.md section 2; decisions D19 and D25): after a load that succeeds cell `i` holds the word
of line `i`, the cells beyond hold `+000000`, some word has opcode 043, and the rest is as after reset. -/
def Obligations.LoadInstallsImage : Prop :=
  ∀ (s t : State) (lines : List Text), s.load lines = .ok t →
    lines.length ≤ Config.memoryLength ∧
      (∀ i l, lines[i]? = some l → (t.mem.read i).text = migrate l) ∧
      (∀ i, lines.length ≤ i → t.mem.read i = ⟨.plus, 0⟩) ∧
      (∃ i, i < lines.length ∧ opcode (t.mem.read i) = 43) ∧
      t = { s with mem := t.mem, acc := 0, pc := 0, halted := false, fault := none, fsm := .ready }

/-- A load succeeds exactly if the program is not too large, every line is a word after migration, and some word has opcode
043; otherwise nothing is installed (70_reset_and_hazards.md section 2; decision D19). -/
def Obligations.LoadSucceedsExactlyOnValidPrograms : Prop :=
  ∀ (s : State) (lines : List Text),
    ((∃ t, s.load lines = .ok t) ↔
      lines.length ≤ Config.memoryLength ∧ (∀ l ∈ lines, ∃ w, Word.ofText? (migrate l) = some w) ∧
        ∃ l ∈ lines, ∃ w, Word.ofText? (migrate l) = some w ∧ opcode w = 43) ∧
      (∀ e, s.load lines = .error e → hostEvent (.load lines) s = .next s)

/-- Legacy migration of a four-digit word (70_reset_and_hazards.md section 2; the legacy opcode set is the spec's decision D18,
log entry 17): with a legacy opcode in its first two digits it becomes the instruction word with that opcode and the last
two digits as operand; any other becomes the six-digit word of the same value; the sign is copied. -/
def Obligations.LegacyWordMigrates : Prop :=
  ∀ (sg : Sign) (n : Nat), n < 10000 →
    Word.ofText? (migrate (signChar sg :: digitsText 4 n)) =
      if n / 100 ∈ [10, 11, 20, 21, 30, 31, 32, 33, 40, 41, 42, 43] then
        some (instrWord sg (n / 100) (n % 100))
      else some ⟨sg, Fin.ofNat Config.wordModulus n⟩
end

