-- ==== Sys2Proof/Laws/Codec.lean ====
section
/-! SUPPORT. Small lemmas about words, their fields and values, and the overflow unit. -/

namespace Sys2Proof

theorem wordModulus_eq_pow : Config.wordModulus = 10 ^ Config.wordLength := by decide

theorem Word.mag_lt (w : Word) : w.mag.val < 1000000 := w.mag.isLt

/-- The opcode field as arithmetic on the magnitude (30_encoding.md R81). -/
theorem opcode_eq (w : Word) : opcode w = w.mag.val / 1000 := by
  have h := w.mag_lt
  simp only [opcode, digits, Config.wordLength, Config.opcodeLength]
  omega

/-- The operand field as arithmetic on the magnitude (30_encoding.md R82). -/
theorem operand_eq (w : Word) : operand w = w.mag.val % 1000 := by
  simp [operand, digits, Config.wordLength, Config.opcodeLength]

theorem operand_lt (w : Word) : operand w < Config.operandValues := by
  rw [operand_eq]
  exact Nat.mod_lt _ (by decide)

theorem opcode_lt (w : Word) : opcode w < 1000 := by
  have h := w.mag_lt
  rw [opcode_eq]
  omega

@[simp] theorem instrWord_sign (sg : Sign) (opc opr : Nat) : (instrWord sg opc opr).sign = sg := rfl

theorem instrWord_mag {opc opr : Nat} (sg : Sign) (hopc : opc < 1000) (hopr : opr < Config.operandValues) :
    (instrWord sg opc opr).mag.val = opc * 1000 + opr := by
  have h : opr < 1000 := hopr
  show (opc * 1000 + opr) % 1000000 = opc * 1000 + opr
  omega

theorem opcode_instrWord {opc opr : Nat} (sg : Sign) (hopc : opc < 1000) (hopr : opr < Config.operandValues) :
    opcode (instrWord sg opc opr) = opc := by
  have h : opr < 1000 := hopr
  rw [opcode_eq, instrWord_mag sg hopc hopr]
  omega

theorem operand_instrWord {opc opr : Nat} (sg : Sign) (hopc : opc < 1000) (hopr : opr < Config.operandValues) :
    operand (instrWord sg opc opr) = opr := by
  have h : opr < 1000 := hopr
  rw [operand_eq, instrWord_mag sg hopc hopr]
  omega

/-- The value of a word is below `M` in magnitude (43_arithmetic.md R160). -/
theorem Word.toInt_natAbs_lt (w : Word) : w.toInt.natAbs < Config.wordModulus := by
  have h := w.mag.isLt
  unfold Word.toInt signed
  split <;> omega

namespace Machine

/-- The overflow unit does nothing within its range (40_cycle.md R108). -/
theorem truncateTo_of_lt {width : Nat} {v : Int} (h : v.natAbs < 10 ^ width) : truncateTo width v = v := if_pos h

theorem truncate_of_lt {v : Int} (h : v.natAbs < Config.wordModulus) : truncate v = v :=
  truncateTo_of_lt (by simpa [wordModulus_eq_pow] using h)

@[simp] theorem truncate_toInt (w : Word) : truncate w.toInt = w.toInt := truncate_of_lt w.toInt_natAbs_lt

/-- What the overflow unit answers is in range (10_state.md R23). -/
theorem truncate_natAbs_lt (v : Int) : (truncate v).natAbs < Config.wordModulus := by
  have hpos : v.natAbs % 10 ^ 6 < 10 ^ 6 := Nat.mod_lt _ (by decide)
  unfold truncate truncateTo
  split
  · rename_i h
    simpa [wordModulus_eq_pow] using h
  · split <;> simp only [Config.wordModulus, Config.wordLength] <;> omega

end Machine

end Sys2Proof
end

