-- ==== Sys2Proof/Laws/Memory.lean ====
section
/-! SUPPORT. The laws of the memory array: read after write, and the canonical form that every operation keeps. -/

namespace Sys2Proof.Machine

theorem Memory.read_without_self (m : Memory) (a : Nat) : (m.without a).read a = Word.zero := by
  induction m with
  | nil => rfl
  | cons c rest ih =>
    unfold Memory.without
    split
    · exact ih
    · simp_all [Memory.read]

theorem Memory.read_without_other (m : Memory) {a b : Nat} (h : b ≠ a) : (m.without a).read b = m.read b := by
  induction m with
  | nil => rfl
  | cons c rest ih =>
    unfold Memory.without
    split
    · rename_i hc
      simp [Memory.read, hc, ih, Ne.symm h]
    · simp [Memory.read, ih]

/-- No cell of the list is at `a`. -/
abbrev Memory.free (m : Memory) (a : Nat) : Prop := ∀ c ∈ m, c.1 ≠ a

theorem Memory.without_free (m : Memory) (a : Nat) : (m.without a).free a := by
  induction m with
  | nil => simp [Memory.without]
  | cons c rest ih =>
    unfold Memory.without
    split
    · exact ih
    · intro d hd
      rcases List.mem_cons.mp hd with rfl | hd
      · assumption
      · exact ih d hd

theorem Memory.mem_without {m : Memory} {a : Nat} {c : Nat × Word} (h : c ∈ m.without a) : c ∈ m := by
  induction m with
  | nil => simp [Memory.without] at h
  | cons d rest ih =>
    unfold Memory.without at h
    split at h
    · exact List.mem_cons_of_mem _ (ih h)
    · rcases List.mem_cons.mp h with rfl | h'
      · exact List.mem_cons_self
      · exact List.mem_cons_of_mem _ (ih h')

theorem Memory.read_place_self {m : Memory} {a : Nat} (w : Word) (h : m.free a) : (m.place a w).read a = w := by
  induction m with
  | nil => simp [Memory.place, Memory.read]
  | cons c rest ih =>
    have hrest : Memory.free rest a := fun d hd => h d (List.mem_cons_of_mem _ hd)
    have hc : c.1 ≠ a := h c List.mem_cons_self
    unfold Memory.place
    split
    · simp [Memory.read]
    · simp [Memory.read, hc, ih hrest]

theorem Memory.read_place_other (m : Memory) {a b : Nat} (w : Word) (h : b ≠ a) :
    (m.place a w).read b = m.read b := by
  induction m with
  | nil => simp [Memory.place, Memory.read, Ne.symm h]
  | cons c rest ih =>
    unfold Memory.place
    split
    · simp [Memory.read, Ne.symm h]
    · simp [Memory.read, ih]

/-- A read after a write to the same address gives the word written (20_memory.md R63). -/
@[simp] theorem Memory.read_write_same (m : Memory) (a : Nat) (w : Word) : (m.write a w).read a = w := by
  unfold Memory.write
  split
  · rename_i h
    rw [Memory.read_without_self, h]
  · exact Memory.read_place_self w (m.without_free a)

/-- A write leaves every other address alone (20_memory.md R63). -/
theorem Memory.read_write_other (m : Memory) {a b : Nat} (w : Word) (h : b ≠ a) :
    (m.write a w).read b = m.read b := by
  unfold Memory.write
  split
  · exact m.read_without_other h
  · rw [Memory.read_place_other _ w h, m.read_without_other h]

theorem Memory.wf_tail {c : Nat × Word} {m : Memory} (h : Memory.wf (c :: m)) : Memory.wf m :=
  ⟨(List.pairwise_cons.mp h.1).2, fun d hd => h.2 d (List.mem_cons_of_mem _ hd)⟩

theorem Memory.wf_without {m : Memory} (h : m.wf) (a : Nat) : (m.without a).wf := by
  induction m with
  | nil => exact h
  | cons c rest ih =>
    have ht := ih (Memory.wf_tail h)
    unfold Memory.without
    split
    · exact ht
    · refine ⟨List.pairwise_cons.mpr ⟨fun d hd => ?_, ht.1⟩, fun d hd => ?_⟩
      · exact (List.pairwise_cons.mp h.1).1 d (Memory.mem_without hd)
      · rcases List.mem_cons.mp hd with rfl | hd
        · exact h.2 _ List.mem_cons_self
        · exact ht.2 d hd

theorem Memory.mem_place {m : Memory} {a : Nat} {w : Word} {c : Nat × Word} (h : c ∈ m.place a w) :
    c = (a, w) ∨ c ∈ m := by
  induction m with
  | nil => simpa [Memory.place] using h
  | cons d rest ih =>
    unfold Memory.place at h
    split at h
    · simpa using h
    · rcases List.mem_cons.mp h with rfl | h
      · exact .inr List.mem_cons_self
      · rcases ih h with h | h
        · exact .inl h
        · exact .inr (List.mem_cons_of_mem _ h)

theorem Memory.wf_place {m : Memory} {a : Nat} {w : Word} (h : m.wf) (hfree : m.free a)
    (ha : a < Config.memoryLength) (hw : w ≠ Word.zero) : (m.place a w).wf := by
  induction m with
  | nil => simp [Memory.place, Memory.wf, ha, hw]
  | cons c rest ih =>
    have ht := ih (Memory.wf_tail h) (fun d hd => hfree d (List.mem_cons_of_mem _ hd))
    have hhead := (List.pairwise_cons.mp h.1).1
    unfold Memory.place
    split
    · rename_i hlt
      refine ⟨List.pairwise_cons.mpr ⟨fun d hd => ?_, h.1⟩, fun d hd => ?_⟩
      · rcases List.mem_cons.mp hd with rfl | hd
        · exact hlt
        · exact Nat.lt_trans hlt (hhead d hd)
      · rcases List.mem_cons.mp hd with rfl | hd
        · exact ⟨ha, hw⟩
        · exact h.2 d hd
    · rename_i hge
      have hne : c.1 ≠ a := hfree c List.mem_cons_self
      refine ⟨List.pairwise_cons.mpr ⟨fun d hd => ?_, ht.1⟩, fun d hd => ?_⟩
      · rcases Memory.mem_place hd with rfl | hd
        · show c.1 < a
          omega
        · exact hhead d hd
      · rcases List.mem_cons.mp hd with rfl | hd
        · exact h.2 _ List.mem_cons_self
        · exact ht.2 d hd

/-- A write to a cell that exists keeps the canonical form. -/
theorem Memory.wf_write {m : Memory} (h : m.wf) {a : Nat} (ha : a < Config.memoryLength) (w : Word) :
    (m.write a w).wf := by
  unfold Memory.write
  split
  · exact Memory.wf_without h a
  · rename_i hw
    exact Memory.wf_place (Memory.wf_without h a) (m.without_free a) ha hw

/-- The memory after reset is in the canonical form. -/
theorem Memory.wf_reset : State.reset.mem.wf := by decide

theorem State.memRead_of_lt {s : State} {a : Nat} (h : a < Config.memoryLength) :
    s.memRead a = some (s.mem.read a) := if_pos h

theorem State.memRead_of_ge {s : State} {a : Nat} (h : Config.memoryLength ≤ a) : s.memRead a = none :=
  if_neg (Nat.not_lt.mpr h)

theorem State.memWrite_of_lt {s : State} {a : Nat} (h : a < Config.memoryLength) (w : Word) :
    s.memWrite a w = some { s with mem := s.mem.write a w } := if_pos h

theorem State.memWrite_of_ge {s : State} {a : Nat} (h : Config.memoryLength ≤ a) (w : Word) :
    s.memWrite a w = none := if_neg (Nat.not_lt.mpr h)

/-- `MemRead` answers exactly where there is a cell (20_memory.md R62, R64). -/
theorem State.memRead_eq_some {s : State} {a : Nat} {w : Word} :
    s.memRead a = some w ↔ a < Config.memoryLength ∧ s.mem.read a = w := by
  unfold State.memRead
  split <;> simp_all

/-- What a `MemWrite` that answers has done (20_memory.md R63, R64). -/
theorem State.memWrite_eq_some {s t : State} {a : Nat} {w : Word} :
    s.memWrite a w = some t ↔ a < Config.memoryLength ∧ t = { s with mem := s.mem.write a w } := by
  unfold State.memWrite
  split <;> simp_all [eq_comm]

end Sys2Proof.Machine
end

