-- ==== Sys2Proof/Laws/State.lean ====
section
/-! SUPPORT. One lemma per field per named update of the state, each true by definition, so that no proof unfolds a
record update. -/

namespace Sys2Proof.Machine

/-! ### advance -/

@[simp] theorem State.advance_mem (s : State) : s.advance.mem = s.mem := rfl
@[simp] theorem State.advance_acc (s : State) : s.advance.acc = s.acc := rfl
@[simp] theorem State.advance_pc (s : State) : s.advance.pc = s.pc + 1 := rfl
@[simp] theorem State.advance_halted (s : State) : s.advance.halted = s.halted := rfl
@[simp] theorem State.advance_fault (s : State) : s.advance.fault = s.fault := rfl
@[simp] theorem State.advance_fsm (s : State) : s.advance.fsm = s.fsm := rfl
@[simp] theorem State.advance_stopReq (s : State) : s.advance.stopReq = s.stopReq := rfl
@[simp] theorem State.advance_input (s : State) : s.advance.input = s.input := rfl
@[simp] theorem State.advance_events (s : State) : s.advance.events = s.events := rfl

/-! ### jump -/

@[simp] theorem State.jump_mem (s : State) (a : Nat) : (s.jump a).mem = s.mem := rfl
@[simp] theorem State.jump_acc (s : State) (a : Nat) : (s.jump a).acc = s.acc := rfl
@[simp] theorem State.jump_pc (s : State) (a : Nat) : (s.jump a).pc = a := rfl
@[simp] theorem State.jump_halted (s : State) (a : Nat) : (s.jump a).halted = s.halted := rfl
@[simp] theorem State.jump_fault (s : State) (a : Nat) : (s.jump a).fault = s.fault := rfl
@[simp] theorem State.jump_fsm (s : State) (a : Nat) : (s.jump a).fsm = s.fsm := rfl
@[simp] theorem State.jump_stopReq (s : State) (a : Nat) : (s.jump a).stopReq = s.stopReq := rfl
@[simp] theorem State.jump_input (s : State) (a : Nat) : (s.jump a).input = s.input := rfl
@[simp] theorem State.jump_events (s : State) (a : Nat) : (s.jump a).events = s.events := rfl

/-! ### setAcc -/

@[simp] theorem State.setAcc_mem (s : State) (v : Int) : (s.setAcc v).mem = s.mem := rfl
@[simp] theorem State.setAcc_acc (s : State) (v : Int) : (s.setAcc v).acc = v := rfl
@[simp] theorem State.setAcc_pc (s : State) (v : Int) : (s.setAcc v).pc = s.pc := rfl
@[simp] theorem State.setAcc_halted (s : State) (v : Int) : (s.setAcc v).halted = s.halted := rfl
@[simp] theorem State.setAcc_fault (s : State) (v : Int) : (s.setAcc v).fault = s.fault := rfl
@[simp] theorem State.setAcc_fsm (s : State) (v : Int) : (s.setAcc v).fsm = s.fsm := rfl
@[simp] theorem State.setAcc_stopReq (s : State) (v : Int) : (s.setAcc v).stopReq = s.stopReq := rfl
@[simp] theorem State.setAcc_input (s : State) (v : Int) : (s.setAcc v).input = s.input := rfl
@[simp] theorem State.setAcc_events (s : State) (v : Int) : (s.setAcc v).events = s.events := rfl

/-! ### truncateAcc -/

@[simp] theorem State.truncateAcc_mem (s : State) : s.truncateAcc.mem = s.mem := rfl
@[simp] theorem State.truncateAcc_acc (s : State) : s.truncateAcc.acc = truncate s.acc := rfl
@[simp] theorem State.truncateAcc_pc (s : State) : s.truncateAcc.pc = s.pc := rfl
@[simp] theorem State.truncateAcc_halted (s : State) : s.truncateAcc.halted = s.halted := rfl
@[simp] theorem State.truncateAcc_fault (s : State) : s.truncateAcc.fault = s.fault := rfl
@[simp] theorem State.truncateAcc_fsm (s : State) : s.truncateAcc.fsm = s.fsm := rfl
@[simp] theorem State.truncateAcc_stopReq (s : State) : s.truncateAcc.stopReq = s.stopReq := rfl
@[simp] theorem State.truncateAcc_input (s : State) : s.truncateAcc.input = s.input := rfl
@[simp] theorem State.truncateAcc_events (s : State) : s.truncateAcc.events = s.events := rfl

/-! ### emit -/

@[simp] theorem State.emit_mem (s : State) (e : PortEvent) : (s.emit e).mem = s.mem := rfl
@[simp] theorem State.emit_acc (s : State) (e : PortEvent) : (s.emit e).acc = s.acc := rfl
@[simp] theorem State.emit_pc (s : State) (e : PortEvent) : (s.emit e).pc = s.pc := rfl
@[simp] theorem State.emit_halted (s : State) (e : PortEvent) : (s.emit e).halted = s.halted := rfl
@[simp] theorem State.emit_fault (s : State) (e : PortEvent) : (s.emit e).fault = s.fault := rfl
@[simp] theorem State.emit_fsm (s : State) (e : PortEvent) : (s.emit e).fsm = s.fsm := rfl
@[simp] theorem State.emit_stopReq (s : State) (e : PortEvent) : (s.emit e).stopReq = s.stopReq := rfl
@[simp] theorem State.emit_input (s : State) (e : PortEvent) : (s.emit e).input = s.input := rfl
@[simp] theorem State.emit_events (s : State) (e : PortEvent) : (s.emit e).events = s.events ++ [e] := rfl

/-! ### beginCycle -/

@[simp] theorem State.beginCycle_mem (s : State) : s.beginCycle.mem = s.mem := rfl
@[simp] theorem State.beginCycle_acc (s : State) : s.beginCycle.acc = s.acc := rfl
@[simp] theorem State.beginCycle_pc (s : State) : s.beginCycle.pc = s.pc := rfl
@[simp] theorem State.beginCycle_halted (s : State) : s.beginCycle.halted = s.halted := rfl
@[simp] theorem State.beginCycle_fault (s : State) : s.beginCycle.fault = s.fault := rfl
@[simp] theorem State.beginCycle_fsm (s : State) : s.beginCycle.fsm = .running := rfl
@[simp] theorem State.beginCycle_stopReq (s : State) : s.beginCycle.stopReq = s.stopReq := rfl
@[simp] theorem State.beginCycle_input (s : State) : s.beginCycle.input = s.input := rfl
@[simp] theorem State.beginCycle_events (s : State) : s.beginCycle.events = s.events := rfl

/-! ### halt -/

@[simp] theorem State.halt_mem (s : State) : s.halt.mem = s.mem := rfl
@[simp] theorem State.halt_acc (s : State) : s.halt.acc = s.acc := rfl
@[simp] theorem State.halt_pc (s : State) : s.halt.pc = s.pc := rfl
@[simp] theorem State.halt_halted (s : State) : s.halt.halted = true := rfl
@[simp] theorem State.halt_fault (s : State) : s.halt.fault = s.fault := rfl
@[simp] theorem State.halt_fsm (s : State) : s.halt.fsm = .halted := rfl
@[simp] theorem State.halt_stopReq (s : State) : s.halt.stopReq = s.stopReq := rfl
@[simp] theorem State.halt_input (s : State) : s.halt.input = s.input := rfl
@[simp] theorem State.halt_events (s : State) : s.halt.events = s.events := rfl

/-! ### raise -/

@[simp] theorem State.raise_mem (s : State) (f : EngineFault) : (s.raise f).mem = s.mem := rfl
@[simp] theorem State.raise_acc (s : State) (f : EngineFault) : (s.raise f).acc = s.acc := rfl
@[simp] theorem State.raise_pc (s : State) (f : EngineFault) : (s.raise f).pc = s.pc := rfl
@[simp] theorem State.raise_halted (s : State) (f : EngineFault) : (s.raise f).halted = s.halted := rfl
@[simp] theorem State.raise_fault (s : State) (f : EngineFault) : (s.raise f).fault = some f := rfl
@[simp] theorem State.raise_fsm (s : State) (f : EngineFault) : (s.raise f).fsm = .faulted := rfl
@[simp] theorem State.raise_stopReq (s : State) (f : EngineFault) : (s.raise f).stopReq = s.stopReq := rfl
@[simp] theorem State.raise_input (s : State) (f : EngineFault) : (s.raise f).input = s.input := rfl
@[simp] theorem State.raise_events (s : State) (f : EngineFault) : (s.raise f).events = s.events := rfl

/-! ### resetCore -/

@[simp] theorem State.resetCore_mem (s : State) : s.resetCore.mem = [] := rfl
@[simp] theorem State.resetCore_acc (s : State) : s.resetCore.acc = 0 := rfl
@[simp] theorem State.resetCore_pc (s : State) : s.resetCore.pc = 0 := rfl
@[simp] theorem State.resetCore_halted (s : State) : s.resetCore.halted = false := rfl
@[simp] theorem State.resetCore_fault (s : State) : s.resetCore.fault = none := rfl
@[simp] theorem State.resetCore_fsm (s : State) : s.resetCore.fsm = .ready := rfl
@[simp] theorem State.resetCore_stopReq (s : State) : s.resetCore.stopReq = s.stopReq := rfl
@[simp] theorem State.resetCore_input (s : State) : s.resetCore.input = s.input := rfl
@[simp] theorem State.resetCore_events (s : State) : s.resetCore.events = s.events := rfl

end Sys2Proof.Machine
end

