-- ==== Sys2Proof/Laws/Ops.lean ====
section
/-! SUPPORT. For each shared operation one lemma that says once everything it can do: if it answers a next state, then
one of these cases holds. -/

namespace Sys2Proof.Machine

@[simp] theorem next_inj {s t : State} : ((.next s : Result) = .next t) ↔ s = t := by
  constructor
  · intro h
    injection h
  · intro h
    rw [h]

/-- The end of a completed cycle (40_cycle.md R109). -/
theorem complete_cases {s t : State} : complete s = .next t ↔ t = s.truncateAcc := by
  simp [complete, eq_comm]

/-- The truncation step leaves an accumulator in range as it is (40_cycle.md R109). -/
theorem State.truncateAcc_of_inRange {s : State} (h : s.accInRange) : s.truncateAcc = s := by
  simp [State.truncateAcc, truncate_of_lt h]

/-- The operand check and the advance (40_cycle.md R105, R106). -/
theorem checkOperand_cases {opr : Nat} {s t : State} {op : State → Result} :
    checkOperand opr s op = .next t ↔
      (opr < Config.memoryLength ∧ op s.advance = .next t) ∨
      (Config.memoryLength ≤ opr ∧ t = s.raise (.invalidMemoryAddress opr)) := by
  unfold checkOperand
  split
  · constructor
    · intro h
      exact .inl ⟨‹_›, h⟩
    · rintro (h | h)
      · exact h.2
      · omega
  · rw [next_inj]
    constructor
    · rintro rfl
      exact .inr ⟨by omega, rfl⟩
    · rintro (h | h)
      · omega
      · exact h.2.symm

theorem checkOperand_of_lt {opr : Nat} {s : State} {op : State → Result} (h : opr < Config.memoryLength) :
    checkOperand opr s op = op s.advance := if_pos h

theorem checkOperand_of_ge {opr : Nat} {s : State} {op : State → Result} (h : Config.memoryLength ≤ opr) :
    checkOperand opr s op = .next (s.raise (.invalidMemoryAddress opr)) := if_neg (Nat.not_lt.mpr h)

/-- The read of the cell an operand names (20_memory.md R62). -/
theorem withCell_cases {a : Nat} {s t : State} {use : Word → Result} :
    withCell a s use = .next t ↔ a < Config.memoryLength ∧ use (s.mem.read a) = .next t := by
  unfold withCell State.memRead
  split <;> simp_all

theorem withCell_of_lt {a : Nat} {s : State} {use : Word → Result} (h : a < Config.memoryLength) :
    withCell a s use = use (s.mem.read a) := by
  simp [withCell, State.memRead_of_lt h]

/-- The write of the cell an operand names (20_memory.md R63). -/
theorem storeCell_cases {a : Nat} {w : Word} {s t : State} {k : State → Result} :
    storeCell a w s k = .next t ↔
      a < Config.memoryLength ∧ k { s with mem := s.mem.write a w } = .next t := by
  unfold storeCell State.memWrite
  split <;> simp_all

theorem storeCell_of_lt {a : Nat} {w : Word} {s : State} {k : State → Result} (h : a < Config.memoryLength) :
    storeCell a w s k = k { s with mem := s.mem.write a w } := by
  simp [storeCell, State.memWrite_of_lt h]

/-- An arithmetic instruction (43_arithmetic.md R160): the fault of its operand, or the exact result cut once. -/
theorem arithmetic_cases {op : Int → Int → Int} {a : Nat} {s t : State} :
    arithmetic op a s = .next t ↔
      (a < Config.memoryLength ∧
        t = { s with pc := s.pc + 1, acc := truncate (op s.acc (s.mem.read a).toInt) }) ∨
      (Config.memoryLength ≤ a ∧ t = s.raise (.invalidMemoryAddress a)) := by
  unfold arithmetic
  rw [checkOperand_cases, withCell_cases, complete_cases]
  constructor
  · rintro (⟨h, -, rfl⟩ | h)
    · exact .inl ⟨h, rfl⟩
    · exact .inr h
  · rintro (⟨h, rfl⟩ | h)
    · exact .inl ⟨h, h, rfl⟩
    · exact .inr h

/-- The branch unit (44_control.md R184): the fault, the target, or the advanced `pc` that stands. -/
theorem branchUnit_cases {target : Int} {taken : Bool} {s t : State} :
    branchUnit target taken s = .next t ↔
      ((target < 0 ∨ (Config.memoryLength : Int) ≤ target) ∧ t = s.raise (.invalidMemoryAddress target)) ∨
      (0 ≤ target ∧ target < (Config.memoryLength : Int) ∧ taken = true ∧ t = (s.jump target.toNat).truncateAcc) ∨
      (0 ≤ target ∧ target < (Config.memoryLength : Int) ∧ taken = false ∧ t = s.truncateAcc) := by
  unfold branchUnit
  split
  · rename_i h
    constructor
    · intro ht
      exact .inl ⟨h, (next_inj.mp ht).symm⟩
    · rintro (⟨-, rfl⟩ | ⟨h1, h2, -⟩ | ⟨h1, h2, -⟩)
      · rfl
      · omega
      · omega
  · rename_i h
    have h1 : 0 ≤ target := by omega
    have h2 : target < (Config.memoryLength : Int) := by omega
    have h3 : ¬ target < 0 := by omega
    have h4 : ¬ (Config.memoryLength : Int) ≤ target := by omega
    cases taken <;> simp only [complete, h1, h2, h3, h4] <;> simp [eq_comm]

/-- A legal target never reaches the fault of the branch unit (44_control.md R184). -/
theorem branchUnit_of_lt {a : Nat} (taken : Bool) (s : State) (h : a < Config.memoryLength) :
    branchUnit (a : Int) taken s = .next (if taken then s.jump a else s).truncateAcc := by
  have hb : ¬((a : Int) < 0 ∨ (Config.memoryLength : Int) ≤ (a : Int)) := by omega
  unfold branchUnit
  rw [if_neg hb]
  cases taken <;> simp [complete]

/-- What a READ cycle with a request outstanding does with the lines at the port (41_io.md R131, R132, R134): the lines
before the first valid one are dropped, each with a new request; then the value is stored, or the FSM waits. -/
theorem awaitLine_cases {a : Nat} {lines : List Text} {s t : State} (h : awaitLine a lines s = .next t) :
    (∃ bad line rest v, lines = bad ++ line :: rest ∧ (∀ l ∈ bad, acceptedValue l = none) ∧
      acceptedValue line = some v ∧ a < Config.memoryLength ∧
      t = State.truncateAcc { s with
        mem := s.mem.write a (Word.ofInt v)
        input := rest
        fsm := .running
        events := s.events ++ List.replicate bad.length .inputRequest }) ∨
    ((∀ l ∈ lines, acceptedValue l = none) ∧
      t = { s with
        input := []
        fsm := .waitInput a
        events := s.events ++ List.replicate lines.length .inputRequest }) := by
  induction lines generalizing s with
  | nil =>
    simp only [awaitLine, next_inj] at h
    exact .inr ⟨by simp, by simp [← h]⟩
  | cons l rest ih =>
    unfold awaitLine at h
    split at h
    · rename_i v hv
      rw [storeCell_cases, complete_cases] at h
      exact .inl ⟨[], l, rest, v, by simp, by simp, hv, h.1, by simp [h.2]⟩
    · rename_i hl
      have hrep : ∀ n, s.events ++ [PortEvent.inputRequest] ++ List.replicate n PortEvent.inputRequest
          = s.events ++ List.replicate (n + 1) PortEvent.inputRequest := by
        intro n
        simp [List.replicate_succ]
      rcases ih h with ⟨bad, line, rest', v, rfl, hbad, hv, ha, rfl⟩ | ⟨hbad, rfl⟩
      · refine .inl ⟨l :: bad, line, rest', v, rfl, ?_, hv, ha, ?_⟩
        · simpa [hl] using hbad
        · simp only [State.emit_mem, State.emit_events, hrep, List.length_cons]
          rfl
      · refine .inr ⟨?_, ?_⟩
        · simpa [hl] using hbad
        · simp only [State.emit_events, hrep, List.length_cons]
          rfl

/-- A word whose opcode is not in the table (40_cycle.md R105 to R107). -/
theorem illegalWord_cases {w : Word} {s t : State} :
    illegalWord w s = .next t ↔
      (operand w < Config.memoryLength ∧ t = s.advance.raise (.invalidOpcode (opcode w))) ∨
      (Config.memoryLength ≤ operand w ∧ t = s.raise (.invalidMemoryAddress (operand w))) := by
  unfold illegalWord
  rw [checkOperand_cases, next_inj]
  constructor
  · rintro (⟨h, rfl⟩ | h)
    · exact .inl ⟨h, rfl⟩
    · exact .inr h
  · rintro (⟨h, rfl⟩ | h)
    · exact .inl ⟨h, rfl⟩
    · exact .inr h

/-- A cycle (40_cycle.md R110): cancelled by the stop request, out of range, or the fetched word. -/
theorem cycle_cases {s t : State} :
    cycle s = .next t ↔
      (s.stopReq = true ∧ t = s.halt) ∨
      (s.stopReq = false ∧ Config.memoryLength ≤ s.pc ∧ t = s.raise (.fetchOutOfRange s.pc)) ∨
      (s.stopReq = false ∧ s.pc < Config.memoryLength ∧
        executeWord (s.mem.read s.pc) s.beginCycle = .next t) := by
  cases hstop : s.stopReq with
  | true => simp [cycle, hstop, eq_comm]
  | false =>
    by_cases hpc : s.pc < Config.memoryLength
    · have hge : ¬ Config.memoryLength ≤ s.pc := by omega
      simp only [cycle, hstop, State.fetch, State.memRead_of_lt hpc, hpc, hge]
      simp
    · have hge : Config.memoryLength ≤ s.pc := by omega
      simp only [cycle, hstop, State.fetch, State.memRead_of_ge hge, hpc, hge]
      simp [eq_comm]

theorem State.waits_eq_true {s : State} : s.waits = true ↔ ∃ a, s.fsm = .waitInput a := by
  unfold State.waits
  split <;> simp_all

theorem State.waits_eq_false {s : State} : s.waits = false ↔ ∀ a, s.fsm ≠ .waitInput a := by
  unfold State.waits
  split <;> simp_all

theorem State.active_eq_true {s : State} : s.active = true ↔ s.fault = none ∧ s.halted = false := by
  simp [State.active]

/-- A step request (40_cycle.md R113, R115). -/
theorem stepRequest_cases {s t : State} :
    stepRequest s = .next t ↔
      (s.active = false ∧ t = s) ∨
      (s.active = true ∧ ∃ a, s.fsm = .waitInput a ∧ awaitLine a s.input s = .next t) ∨
      (s.active = true ∧ s.waits = false ∧ cycle s = .next t) := by
  rw [State.waits_eq_false]
  unfold stepRequest
  cases hact : s.active with
  | false => simp [eq_comm]
  | true =>
    simp only [if_true]
    split <;> simp_all

end Sys2Proof.Machine
end

