-- ==== Sys2Proof/Laws/Instructions.lean ====
section
/-! SUPPORT. For each instruction one lemma that says once what it does where its operand passes the check, for the
cycle one that says what a fetched word does, and for the step one that says everything a step can be. -/

namespace Sys2Proof.Machine

/-- Every instruction but HALT takes the fault InvalidMemoryAddress for an operand not below `N` (40_cycle.md R105). -/
theorem exec_of_operand_ge {i : Instr} {a : Nat} {s : State} (hi : i.operand? = some a)
    (ha : Config.memoryLength ≤ a) : exec i s = .next (s.raise (.invalidMemoryAddress a)) := by
  cases i <;> simp only [Instr.operand?, Option.some.injEq, reduceCtorEq] at hi <;> subst hi <;>
    simp only [exec, execRead, execWrite, execLoad, execStore, execAdd, execSubtract, execDivide, execMultiply,
      execBranch, execBranchNeg, execBranchZero, arithmetic, checkOperand_of_ge ha]

theorem execRead_of_lt {a : Nat} {s : State} (h : a < Config.memoryLength) :
    execRead a s = awaitLine a s.input (s.advance.emit .inputRequest) := checkOperand_of_lt h

theorem execWrite_of_lt {a : Nat} {s : State} (h : a < Config.memoryLength) :
    execWrite a s = .next (s.advance.emit (.word (s.mem.read a).text)).truncateAcc := by
  rw [execWrite, checkOperand_of_lt h, withCell_of_lt h]
  rfl

theorem execLoad_of_lt {a : Nat} {s : State} (h : a < Config.memoryLength) :
    execLoad a s = .next (s.advance.setAcc (s.mem.read a).toInt) := by
  rw [execLoad, checkOperand_of_lt h, withCell_of_lt h, complete]
  simp [State.truncateAcc, State.setAcc]

theorem execStore_of_lt {a : Nat} {s : State} (h : a < Config.memoryLength) :
    execStore a s =
      .next (State.truncateAcc { s.advance with mem := s.mem.write a (Word.ofInt s.acc) }) := by
  rw [execStore, checkOperand_of_lt h, storeCell_of_lt h]
  rfl

theorem arithmetic_of_lt {op : Int → Int → Int} {a : Nat} {s : State} (h : a < Config.memoryLength) :
    arithmetic op a s = .next (s.advance.setAcc (truncate (op s.acc (s.mem.read a).toInt))) := by
  rw [arithmetic, checkOperand_of_lt h, withCell_of_lt h]
  rfl

theorem execDivide_of_lt {a : Nat} {s : State} (h : a < Config.memoryLength) :
    execDivide a s =
      if (s.mem.read a).toInt = 0 then .next (s.advance.raise .divideByZero)
      else .next (s.advance.setAcc (truncate (quotient s.acc (s.mem.read a).toInt))) := by
  rw [execDivide, checkOperand_of_lt h, withCell_of_lt h]
  rfl

theorem execBranch_of_lt {a : Nat} {s : State} (h : a < Config.memoryLength) :
    execBranch a s = .next (s.jump a).truncateAcc := by
  rw [execBranch, checkOperand_of_lt h, branchUnit_of_lt _ _ h]
  rfl

theorem execBranchNeg_of_lt {a : Nat} {s : State} (h : a < Config.memoryLength) :
    execBranchNeg a s = .next (if s.acc < 0 then s.jump a else s.advance).truncateAcc := by
  rw [execBranchNeg, checkOperand_of_lt h, branchUnit_of_lt _ _ h]
  by_cases hc : s.acc < 0 <;> simp [accNegative, hc, State.jump, State.advance]

theorem execBranchZero_of_lt {a : Nat} {s : State} (h : a < Config.memoryLength) :
    execBranchZero a s = .next (if s.acc = 0 then s.jump a else s.advance).truncateAcc := by
  rw [execBranchZero, checkOperand_of_lt h, branchUnit_of_lt _ _ h]
  by_cases hc : s.acc = 0 <;> simp [accZero, hc, State.jump, State.advance]

/-- The decoder's answer and the fields of the word (30_encoding.md R81, R82, R84). -/
theorem decode_eq_ok {w : Word} {i : Instr} (h : decode w = .ok i) :
    i.opcode = opcode w ∧ (i = .halt ∨ i.operand? = some (operand w)) := by
  unfold decode at h
  split at h <;> cases h <;> simp_all [Instr.opcode, Instr.operand?]

/-- The decoder refuses exactly the opcodes outside the table (30_encoding.md R84, R85). -/
theorem decode_eq_error {w : Word} {e : DecodeError} (h : decode w = .error e) :
    e = .illegalOpcode (opcode w) ∧ opcode w ∉ opcodeTable := by
  unfold decode at h
  split at h <;> cases h
  simp_all [opcodeTable]

/-- What an instruction does to a state, its operand below `N`: one line per row of the opcode table. -/
def execEffect (i : Instr) (s t : State) : Prop :=
  match i with
  | .read a => awaitLine a s.input (s.advance.emit .inputRequest) = .next t
  | .write a => t = (s.advance.emit (.word (s.mem.read a).text)).truncateAcc
  | .load a => t = s.advance.setAcc (s.mem.read a).toInt
  | .store a => t = State.truncateAcc { s.advance with mem := s.mem.write a (Word.ofInt s.acc) }
  | .add a => t = s.advance.setAcc (truncate (s.acc + (s.mem.read a).toInt))
  | .subtract a => t = s.advance.setAcc (truncate (s.acc - (s.mem.read a).toInt))
  | .divide a =>
    ((s.mem.read a).toInt = 0 ∧ t = s.advance.raise .divideByZero) ∨
      ((s.mem.read a).toInt ≠ 0 ∧ t = s.advance.setAcc (truncate (quotient s.acc (s.mem.read a).toInt)))
  | .multiply a => t = s.advance.setAcc (truncate (s.acc * (s.mem.read a).toInt))
  | .branch a => t = (s.jump a).truncateAcc
  | .branchNeg a => t = (if s.acc < 0 then s.jump a else s.advance).truncateAcc
  | .branchZero a => t = (if s.acc = 0 then s.jump a else s.advance).truncateAcc
  | .halt => t = s.halt.advance.emit .haltNotice

/-- Everything an instruction that answers can have done: the fault of its operand, or its row's effect. -/
theorem exec_cases {i : Instr} {s t : State} (h : exec i s = .next t) :
    (∃ a, i.operand? = some a ∧ Config.memoryLength ≤ a ∧ t = s.raise (.invalidMemoryAddress a)) ∨
      ((∀ a, i.operand? = some a → a < Config.memoryLength) ∧ execEffect i s t) := by
  cases hop : i.operand? with
  | none =>
    refine .inr ⟨by simp, ?_⟩
    cases i <;> simp [Instr.operand?] at hop
    exact (next_inj.mp h).symm
  | some a =>
    by_cases ha : a < Config.memoryLength
    · refine .inr ⟨by simpa using ha, ?_⟩
      cases i <;> simp only [Instr.operand?, Option.some.injEq, reduceCtorEq] at hop <;> subst hop <;>
        simp only [exec, execRead_of_lt ha, execWrite_of_lt ha, execLoad_of_lt ha, execStore_of_lt ha, execAdd,
          execSubtract, execMultiply, arithmetic_of_lt ha, execDivide_of_lt ha, execBranch_of_lt ha,
          execBranchNeg_of_lt ha, execBranchZero_of_lt ha, next_inj] at h <;>
        try exact h.symm
      · exact h
      · unfold execEffect
        split at h
        · exact .inl ⟨‹_›, (next_inj.mp h).symm⟩
        · exact .inr ⟨‹_›, (next_inj.mp h).symm⟩
    · have hge : Config.memoryLength ≤ a := by omega
      rw [exec_of_operand_ge hop hge, next_inj] at h
      exact .inl ⟨a, rfl, hge, h.symm⟩

/-- What a fetched word does (40_cycle.md R103 to R109): a decoded instruction, or the fault of an illegal word. -/
theorem executeWord_cases {w : Word} {s t : State} (h : executeWord w s = .next t) :
    (∃ i, decode w = .ok i ∧ exec i s = .next t) ∨
      (opcode w ∉ opcodeTable ∧ illegalWord w s = .next t) := by
  unfold executeWord at h
  split at h
  · rename_i i hi
    exact .inl ⟨i, hi, h⟩
  · rename_i e he
    exact .inr ⟨(decode_eq_error he).2, h⟩

/-- Everything a step that answers can be (40_cycle.md R110, R113, R115): nothing after the end; the rest of a READ that
waits; a stop; a fetch past the end; an instruction; an illegal word. -/
theorem step_cases {s t : State} (h : step s = .next t) :
    (s.active = false ∧ t = s) ∨
      (s.active = true ∧ ∃ a, s.fsm = .waitInput a ∧ awaitLine a s.input s = .next t) ∨
      (s.canCycle ∧ s.stopReq = true ∧ t = s.halt) ∨
      (s.canCycle ∧ s.stopReq = false ∧ Config.memoryLength ≤ s.pc ∧ t = s.raise (.fetchOutOfRange s.pc)) ∨
      (s.canCycle ∧ s.stopReq = false ∧ s.pc < Config.memoryLength ∧
        ∃ i, decode (s.mem.read s.pc) = .ok i ∧ exec i s.beginCycle = .next t) ∨
      (s.canCycle ∧ s.stopReq = false ∧ s.pc < Config.memoryLength ∧
        opcode (s.mem.read s.pc) ∉ opcodeTable ∧ illegalWord (s.mem.read s.pc) s.beginCycle = .next t) := by
  rcases stepRequest_cases.mp h with h | h | ⟨hact, hw, hc⟩
  · exact .inl h
  · exact .inr (.inl h)
  · rcases cycle_cases.mp hc with h | h | ⟨hs, hpc, hx⟩
    · exact .inr (.inr (.inl ⟨⟨hact, hw⟩, h⟩))
    · exact .inr (.inr (.inr (.inl ⟨⟨hact, hw⟩, h⟩)))
    · rcases executeWord_cases hx with hx | hx
      · exact .inr (.inr (.inr (.inr (.inl ⟨⟨hact, hw⟩, hs, hpc, hx⟩))))
      · exact .inr (.inr (.inr (.inr (.inr ⟨⟨hact, hw⟩, hs, hpc, hx⟩))))

end Sys2Proof.Machine
end

