-- ==== Sys2Proof/Laws/Loader.lean ====
section
/-! SUPPORT. What the loader's operations can do, once each. -/

namespace Sys2Proof.Machine

/-- The words of a program that validates, line by line (70_reset_and_hazards.md R243). -/
theorem validateLines_eq_ok {lines : List Text} {ws : List Word} (h : validateLines lines = .ok ws) :
    ws.length = lines.length ∧
      ∀ (i : Nat) (l : Text), lines[i]? = some l → ∃ w, ws[i]? = some w ∧ Word.ofText? (migrate l) = some w := by
  induction lines generalizing ws with
  | nil =>
    cases h
    simp
  | cons l ls ih =>
    simp only [validateLines] at h
    split at h
    · cases h
    · rename_i w hw
      split at h
      · rename_i ws' hws
        cases h
        obtain ⟨hlen, hget⟩ := ih hws
        refine ⟨by simp [hlen], fun i l' hl => ?_⟩
        cases i with
        | zero =>
          simp only [List.getElem?_cons_zero, Option.some.injEq] at hl
          subst hl
          exact ⟨w, by simp, hw⟩
        | succ i => simpa using hget i l' (by simpa using hl)
      · cases h

/-- A program that does not validate fails at its first bad line (70_reset_and_hazards.md R243). -/
theorem validateLines_eq_error {lines : List Text} {e : LoadError} (h : validateLines lines = .error e) :
    ∃ good t rest, lines = good ++ t :: rest ∧ e = .invalidWord t ∧ Word.ofText? (migrate t) = none ∧
      ∀ l ∈ good, Word.ofText? (migrate l) ≠ none := by
  induction lines generalizing e with
  | nil => cases h
  | cons l ls ih =>
    simp only [validateLines] at h
    split at h
    · cases h
      exact ⟨[], l, ls, rfl, rfl, ‹_›, by simp⟩
    · rename_i w hw
      split at h
      · cases h
      · cases h
        obtain ⟨good, t, rest, rfl, rfl, hbad, hgood⟩ := ih ‹_›
        exact ⟨l :: good, t, rest, rfl, rfl, hbad, by simpa [hw] using hgood⟩

/-- The cells after an image is written from `a` on (70_reset_and_hazards.md R245). -/
theorem writeImage_read (image : List Word) (a b : Nat) (m : Memory) :
    (writeImage a image m).read b = if a ≤ b then (image[b - a]?).getD (m.read b) else m.read b := by
  induction image generalizing a m with
  | nil => simp [writeImage]
  | cons w ws ih =>
    rw [writeImage, ih]
    rcases Nat.lt_trichotomy b a with h | h | h
    · rw [if_neg (by omega), if_neg (by omega), Memory.read_write_other _ _ (by omega)]
    · subst h
      rw [if_neg (by omega), if_pos (le_refl _)]
      simp
    · have hb : b - a = b - (a + 1) + 1 := by omega
      rw [if_pos (by omega), if_pos (by omega), Memory.read_write_other _ _ (by omega), hb, List.getElem?_cons_succ]

/-- An image that fits keeps the canonical form. -/
theorem writeImage_wf {image : List Word} {a : Nat} {m : Memory} (h : m.wf)
    (hfit : a + image.length ≤ Config.memoryLength) : (writeImage a image m).wf := by
  induction image generalizing a m with
  | nil => exact h
  | cons w ws ih =>
    rw [List.length_cons] at hfit
    exact ih (Memory.wf_write h (by omega) w) (by omega)

/-- A load that succeeds has passed the three checks and installed the image (70_reset_and_hazards.md R245). -/
theorem State.load_eq_ok {s t : State} {lines : List Text} (h : s.load lines = .ok t) :
    lines.length ≤ Config.memoryLength ∧
      ∃ ws, validateLines lines = .ok ws ∧ ws.any isHaltWord = true ∧ t = s.install ws := by
  unfold State.load checkProgram at h
  split at h
  · rename_i image himage
    split at himage
    · cases himage
    · split at himage
      · cases himage
      · split at himage
        · cases himage
          cases h
          exact ⟨by omega, _, ‹_›, ‹_›, rfl⟩
        · cases himage
  · cases h

end Sys2Proof.Machine
end

