-- ==== Sys2Proof/Laws/PerInstr.lean ====
section
/-! SUPPORT. Facts about every instruction as syntax, one lemma per constructor. -/

namespace Sys2Proof.Laws.EncodedFields

/-- The encoder puts the instruction's opcode and operand into the two fields of format W, under the sign `+`
(30_encoding.md R80 to R82, R84). -/
def Statement (i : Instr) : Prop :=
  i.wellFormed = true →
    opcode (encode i) = i.opcode ∧ operand (encode i) = i.operand?.getD 0 ∧ (encode i).sign = .plus

/-- The fields of any encoded instruction whose opcode has three digits. -/
theorem fields_of_opcode_lt {i : Instr} (hopc : i.opcode < 1000) : Statement i := by
  intro h
  have hopr : i.operand?.getD 0 < Config.operandValues := by
    unfold Instr.wellFormed at h
    split at h
    · rename_i a ha
      simpa [ha] using h
    · rename_i hnone
      simp [hnone]
  exact ⟨opcode_instrWord .plus hopc hopr, operand_instrWord .plus hopc hopr, rfl⟩

theorem read (a : Nat) : Statement (.read a) := fields_of_opcode_lt (by simp [Instr.opcode])
theorem write (a : Nat) : Statement (.write a) := fields_of_opcode_lt (by simp [Instr.opcode])
theorem load (a : Nat) : Statement (.load a) := fields_of_opcode_lt (by simp [Instr.opcode])
theorem store (a : Nat) : Statement (.store a) := fields_of_opcode_lt (by simp [Instr.opcode])
theorem add (a : Nat) : Statement (.add a) := fields_of_opcode_lt (by simp [Instr.opcode])
theorem subtract (a : Nat) : Statement (.subtract a) := fields_of_opcode_lt (by simp [Instr.opcode])
theorem divide (a : Nat) : Statement (.divide a) := fields_of_opcode_lt (by simp [Instr.opcode])
theorem multiply (a : Nat) : Statement (.multiply a) := fields_of_opcode_lt (by simp [Instr.opcode])
theorem branch (a : Nat) : Statement (.branch a) := fields_of_opcode_lt (by simp [Instr.opcode])
theorem branchNeg (a : Nat) : Statement (.branchNeg a) := fields_of_opcode_lt (by simp [Instr.opcode])
theorem branchZero (a : Nat) : Statement (.branchZero a) := fields_of_opcode_lt (by simp [Instr.opcode])
theorem halt : Statement .halt := fields_of_opcode_lt (by simp [Instr.opcode])

end Sys2Proof.Laws.EncodedFields
end

