-- ==== Sys2Proof/Laws/Run.lean ====
section
/-! SUPPORT. How a run of the host's interface unfolds, one step at a time. -/

namespace Sys2Proof.Machine

theorem run_zero (s : State) : Host.Core.run core 0 s = .next s := rfl

theorem run_succ {s t : State} (k : Nat) (h : step s = .next t) :
    Host.Core.run core (k + 1) s = Host.Core.run core k t := by
  have h' : core.step s = .next t := h
  simp only [Host.Core.run, h']

/-- A state whose step changes nothing stays for any number of steps. -/
theorem run_of_fixed {s : State} (h : step s = .next s) (k : Nat) : Host.Core.run core k s = .next s := by
  induction k with
  | zero => exact run_zero s
  | succ k ih => rw [run_succ k h, ih]

/-- A step after the end of a run changes nothing (40_cycle.md R115). -/
theorem step_of_inactive {s : State} (h : s.active = false) : step s = .next s := by
  simp [step, stepRequest, h]

/-- A step while a READ waits and no line has come changes nothing (41_io.md R131). -/
theorem step_of_waiting {s : State} {a : Nat} (h : s.fsm = .waitInput a) (hin : s.input = []) :
    step s = .next s := by
  unfold step stepRequest
  split
  · simp only [h, hin, awaitLine]
    rw [← h, ← hin]
  · rfl

end Sys2Proof.Machine
end

