-- ==== Sys2Proof/Laws/Text.lean ====
section
/-! SUPPORT. What the codec's text functions do: digits written and digits read. -/

namespace Sys2Proof

theorem digitValue_digitChar (d : Nat) : digitValue? (digitChar d) = some (d % 10) := by
  have h : d % 10 < 10 := Nat.mod_lt _ (by decide)
  unfold digitChar
  generalize d % 10 = k at *
  interval_cases k <;> rfl

/-- A character with a digit value is the character of that digit. -/
theorem digitValue_eq_some {c : Char} {d : Nat} (h : digitValue? c = some d) : d < 10 ∧ c = digitChar d := by
  unfold digitValue? at h
  split at h
  · rename_i hc
    have hd : c.toNat - 48 = d := by simpa using h
    refine ⟨by omega, ?_⟩
    have hc' : c.toNat = 48 + d % 10 := by omega
    unfold digitChar
    rw [← hc']
    exact (Char.ofNat_toNat c).symm
  · cases h

@[simp] theorem digitsText_length (k n : Nat) : (digitsText k n).length = k := by
  induction k with
  | zero => rfl
  | succ k ih => simp [digitsText, ih]

/-- Digits written at a width read back as the low digits of the number. -/
theorem parseDigits_digitsText (k n r : Nat) : parseDigits r (digitsText k n) = some (r * 10 ^ k + n % 10 ^ k) := by
  induction k generalizing r with
  | zero => simp [digitsText, parseDigits, Nat.mod_one]
  | succ k ih =>
    simp only [digitsText, parseDigits, digitValue_digitChar, ih]
    have h : n % 10 ^ (k + 1) = n % 10 ^ k + 10 ^ k * (n / 10 ^ k % 10) := by rw [pow_succ, Nat.mod_mul]
    rw [h, pow_succ]
    congr 1
    ring

/-- The digits of a number at a width do not see what is added above that width. -/
theorem digitsText_add_mul {k n : Nat} (h : k ≤ n) (d m : Nat) :
    digitsText k (d * 10 ^ n + m) = digitsText k m := by
  induction k with
  | zero => rfl
  | succ k ih =>
    obtain ⟨j, rfl⟩ : ∃ j, n = k + 1 + j := ⟨n - k - 1, by omega⟩
    have hdiv : (d * 10 ^ (k + 1 + j) + m) / 10 ^ k = d * 10 ^ j * 10 + m / 10 ^ k := by
      have hsplit : d * 10 ^ (k + 1 + j) + m = 10 ^ k * (d * 10 ^ j * 10) + m := by
        rw [pow_add, pow_succ]
        ring
      rw [hsplit, Nat.mul_add_div (by positivity)]
    simp only [digitsText, ih (by omega), hdiv, digitChar]
    rw [Nat.mul_add_mod_self_right]

/-- A text read as a run of digits is the digits of a number at the text's width. -/
theorem parseDigits_eq_some {cs : Text} {r n : Nat} (h : parseDigits r cs = some n) :
    ∃ m, m < 10 ^ cs.length ∧ n = r * 10 ^ cs.length + m ∧ cs = digitsText cs.length m := by
  induction cs generalizing r with
  | nil => exact ⟨0, by simp, by simpa [parseDigits, eq_comm] using h, rfl⟩
  | cons c cs ih =>
    unfold parseDigits at h
    split at h
    · rename_i d hd
      obtain ⟨hd10, hc⟩ := digitValue_eq_some hd
      obtain ⟨m, hm, hn, ht⟩ := ih h
      have hpos : 0 < 10 ^ cs.length := by positivity
      refine ⟨d * 10 ^ cs.length + m, ?_, ?_, ?_⟩
      · rw [List.length_cons, pow_succ]
        nlinarith
      · rw [hn, List.length_cons, pow_succ]
        ring
      · have hq : (d * 10 ^ cs.length + m) / 10 ^ cs.length = d := by
          rw [Nat.add_comm, Nat.add_mul_div_right _ _ hpos, Nat.div_eq_of_lt hm, Nat.zero_add]
        rw [List.length_cons, digitsText, hq, digitsText_add_mul (le_refl _), ← ht, ← hc]
    · cases h

@[simp] theorem signOfChar_signChar (sg : Sign) : signOfChar? (signChar sg) = some sg := by
  cases sg <;> rfl

theorem signOfChar_eq_some {c : Char} {sg : Sign} (h : signOfChar? c = some sg) : c = signChar sg := by
  unfold signOfChar? at h
  split at h
  · cases h
    assumption
  · split at h
    · cases h
      assumption
    · cases h

/-- An accepted line spells a value of magnitude below `M` (41_io.md R132). -/
theorem acceptedValue_natAbs_lt {t : Text} {v : Int} (h : acceptedValue t = some v) :
    v.natAbs < Config.wordModulus := by
  unfold acceptedValue at h
  split at h
  · split at h
    · cases h
      assumption
    · cases h
  · cases h

end Sys2Proof
end

