-- ==== Sys2Proof/Tests/Slice0.lean ====
section
/-! SUPPORT. Tests. Expected values are from the spec's vectors (95_test_vectors.md, the id named at each test) or written
out from its rules; the witnesses show that the hypotheses of each statement can be met. -/

namespace Sys2Proof.Tests

open Sys2Proof.Machine

/-- A small memory from its cells. -/
def cells (l : List (Nat × Word)) : Memory :=
  l.foldl (fun m c => m.write c.1 c.2) []

/-- A machine in its initial state but for its cells and accumulator. -/
def start (l : List (Nat × Word)) (acc : Int) : State :=
  { State.reset with mem := cells l, acc := acc }

/-- The next state of a result. -/
def after (r : Result) : Option State :=
  match r with
  | .next s => some s
  | _ => none

/-- A word from its text in the spec's notation. -/
def word (t : String) : Word :=
  (Word.ofText? t.toList).getD Word.zero

/-- One cycle from a machine at `pc` with cells, accumulator and lines at the port. -/
def cycleFrom (pc : Nat) (l : List (Nat × Word)) (acc : Int) (lines : List String := []) : Option State :=
  after (step { start l acc with pc := pc, input := lines.map String.toList })

/-! ### Well-formedness -/

theorem test_operand_1000_is_ill_formed : (Instr.load 1000).wellFormed = false := by decide
theorem test_operand_999_is_well_formed : (Instr.load 999).wellFormed = true := by decide
theorem test_memory_unsorted_is_ill_formed : ¬ Memory.wf [(5, word "+000001"), (3, word "+000001")] := by decide
theorem test_memory_listed_zero_is_ill_formed : ¬ Memory.wf [(5, word "+000000")] := by decide
theorem test_memory_beyond_end_is_ill_formed : ¬ Memory.wf [(250, word "+000001")] := by decide

/-! ### Decoding: each opcode's word written out from 30_encoding.md R84, as text and as a physical pattern (R88) -/

theorem test_decode_read : decode (word "+010007") = .ok (.read 7) := by decide
theorem test_decode_write : decode (word "+011009") = .ok (.write 9) := by decide
theorem test_decode_load : decode (word "+020249") = .ok (.load 249) := by decide
theorem test_decode_store : decode (word "-021000") = .ok (.store 0) := by decide
theorem test_decode_add : decode (word "+030008") = .ok (.add 8) := by decide
theorem test_decode_subtract : decode (word "+031012") = .ok (.subtract 12) := by decide
theorem test_decode_divide : decode (word "+032010") = .ok (.divide 10) := by decide
theorem test_decode_multiply : decode (word "+033012") = .ok (.multiply 12) := by decide
theorem test_decode_branch : decode (word "+040250") = .ok (.branch 250) := by decide
theorem test_decode_branchNeg : decode (word "-041004") = .ok (.branchNeg 4) := by decide
theorem test_decode_branchZero : decode (word "+042008") = .ok (.branchZero 8) := by decide
theorem test_decode_halt : decode (word "-043123") = .ok .halt := by decide
theorem test_decode_illegal_44 : decode (word "+044000") = .error (.illegalOpcode 44) := by decide
theorem test_decode_illegal_100 : decode (word "+100007") = .error (.illegalOpcode 100) := by decide

theorem test_bits_read : decodeTableWord 32 0b1000000010000000000000111 = some (.read 7) := by decide
theorem test_bits_branchZero : decodeTableWord 32 0b0000001000010001001001001 = some (.branchZero 249) := by decide
theorem test_bits_halt : decodeTableWord 24 0x0043999 = some .halt := by decide
theorem test_bits_not_decimal : tableWord 32 0x001000A = .error .notDecimal := by decide
theorem test_bits_too_wide : tableWord 32 0x2010007 = .error .tooWide := by decide
theorem test_encode_bits : (encode (.load 249)).toBcd = 0x0020249#25 := by decide
theorem test_encode_text : (encode (.divide 10)).text = "+032010".toList := by decide

/-! ### Word codec and overflow unit -/

theorem test_encode_minus_12 : (Word.ofInt (-12)).text = "-000012".toList := by decide
theorem test_encode_at_width_4 : encodeText 234 4 = "+0234".toList := by decide
theorem test_decode_minus_zero : (word "-000000").toInt = 0 ∧ (word "-000000") ≠ Word.zero := by decide
theorem test_valid_lines :
    ["5", "+5", "-12", "0000005", "-0", "+999999", "-999999", "+1007"].all (fun t => isValidWord t.toList) = true := by
  decide
theorem test_invalid_lines :
    ["1000000", "-1000000", "", "+", "12a", "1 2", " 5", "5 ", "1.0", "1e3", "1_000", "--5"].all
      (fun t => !isValidWord t.toList) = true := by
  decide
theorem test_truncate_source_examples : truncateTo 4 10234 = 234 ∧ truncateTo 4 (-13443) = -3443 := by decide
theorem test_truncate_negative_modulus : truncate (-1000000) = 0 ∧ truncate (-999998000001) = -1 := by decide

/-! ### Input and output: vectors V-IO -/

theorem test_read_drops_invalid_lines :
    (cycleFrom 0 [(0, word "+010007")] 3 ["abc", "", "1000000", "-5", "6"]).map
      (fun s => (s.acc, s.mem.read 7, s.input)) = some (3, word "-000005", ["6".toList]) := by decide
theorem test_read_waits :
    (cycleFrom 0 [(0, word "+010007"), (7, word "+000099")] 3).map (fun s => (s.pc, s.fsm, s.mem.read 7)) =
    some (1, .waitInput 7, word "+000099") := by decide
theorem test_write_prints_negative_zero :
    (cycleFrom 0 [(0, word "+011009"), (9, word "-000000")] 3).map (fun s => (s.pc, s.events)) =
    some (1, [.word "-000000".toList]) := by decide
theorem test_write_bad_address :
    (cycleFrom 0 [(0, word "+011250")] 3).map (fun s => (s.pc, s.fault, s.events)) =
    some (0, some (.invalidMemoryAddress 250), []) := by decide

/-! ### Load and store: vectors V-LS -/

theorem test_load_own_word :
    (cycleFrom 0 [(0, word "+020000")] 3).map (fun s => (s.pc, s.acc)) = some (1, 20000) := by decide
theorem test_load_negative :
    (cycleFrom 0 [(0, word "+020007"), (7, word "-000012")] 3).map (·.acc) = some (-12) := by decide
theorem test_store_negative :
    (cycleFrom 0 [(0, word "+021009")] (-7)).map (fun s => (s.pc, s.acc, s.mem.read 9)) =
    some (1, -7, word "-000007") := by decide
theorem test_store_zero_is_not_listed :
    (cycleFrom 0 [(0, word "+021009"), (9, word "-000005")] 0).map (·.mem) = some [(0, word "+021009")] := by decide

/-! ### Arithmetic: vectors V-A -/

theorem test_add_wraps_to_zero :
    (cycleFrom 0 [(0, word "+030008"), (8, word "+000001")] 999999).map (fun s => (s.pc, s.acc)) = some (1, 0) := by
  decide
theorem test_add_negative_overflow :
    (cycleFrom 0 [(0, word "+030008"), (8, word "-999999")] (-999999)).map (·.acc) = some (-999998) := by decide
theorem test_subtract_order : (cycleFrom 0 [(0, word "+031008"), (8, word "+000005")] 3).map (·.acc) = some (-2) := by
  decide
theorem test_subtract_overflow :
    (cycleFrom 0 [(0, word "+031008"), (8, word "-999999")] 999999).map (·.acc) = some 999998 := by decide
theorem test_divide_toward_zero :
    (cycleFrom 0 [(0, word "+032010"), (10, word "+000007")] (-999998)).map (·.acc) = some (-142856) := by decide
theorem test_divide_by_negative_zero :
    (cycleFrom 0 [(0, word "+032010"), (10, word "-000000")] 5).map (fun s => (s.pc, s.acc, s.fault)) =
    some (1, 5, some .divideByZero) := by decide
theorem test_multiply_keeps_sign :
    (cycleFrom 0 [(0, word "+033012"), (12, word "+000789")] (-123456)).map (·.acc) = some (-406784) := by decide
theorem test_multiply_negative_zero_product :
    (cycleFrom 0 [(0, word "+033012"), (12, word "+001000")] (-1000)).map (·.acc) = some 0 := by decide

/-! ### Control: vectors V-B -/

theorem test_branch : (cycleFrom 7 [(7, word "+040249")] 1).map (·.pc) = some 249 := by decide
theorem test_branch_bad_target :
    (cycleFrom 7 [(7, word "+040250")] 1).map (fun s => (s.pc, s.fault)) =
    some (7, some (.invalidMemoryAddress 250)) := by decide
theorem test_branchNeg_taken : (cycleFrom 2 [(2, word "+041004")] (-1)).map (·.pc) = some 4 := by decide
theorem test_branchNeg_zero_falls_through : (cycleFrom 2 [(2, word "+041004")] 0).map (·.pc) = some 3 := by decide
theorem test_branchZero_taken : (cycleFrom 1 [(1, word "+042008")] 0).map (·.pc) = some 8 := by decide
theorem test_branchZero_negative_falls_through : (cycleFrom 1 [(1, word "+042008")] (-3)).map (·.pc) = some 2 := by
  decide
theorem test_halt_in_last_cell :
    (cycleFrom 249 [(249, word "+043000")] 5).map (fun s => (s.pc, s.halted, s.events)) =
    some (250, true, [.haltNotice]) := by decide
theorem test_halt_ignores_operand :
    (cycleFrom 0 [(0, word "-043999")] 5).map (fun s => (s.halted, s.fault)) = some (true, none) := by decide

/-! ### Faults and the stop request: vectors V-F -/

theorem test_bare_reset :
    step State.reset = .next { State.reset with pc := 1, fault := some (.invalidOpcode 0), fsm := .faulted } := rfl
theorem test_address_before_opcode :
    (cycleFrom 4 [(4, word "+099300")] 0).map (fun s => (s.pc, s.fault)) =
    some (4, some (.invalidMemoryAddress 300)) := by decide
theorem test_fetch_past_end :
    (cycleFrom 250 [] 0).map (fun s => (s.pc, s.fault)) = some (250, some (.fetchOutOfRange 250)) := by decide
theorem test_stop_request :
    (after (step { start [(3, word "+020007")] 5 with pc := 3, stopReq := true })).map
      (fun s => (s.pc, s.halted, s.events)) = some (3, true, []) := by decide
theorem test_fault_codes :
    [EngineFault.code (.invalidMemoryAddress 300), EngineFault.code (.invalidOpcode 99), EngineFault.code .divideByZero,
      EngineFault.code (.fetchOutOfRange 250)] = [2, 3, 6, 7] := by decide

/-! ### The host: loader vectors V-L, events, the fetch word -/

/-- The first cells after a load, or the code of its error. -/
def loaded (n : Nat) (lines : List String) : Except Nat (List Word) :=
  match State.reset.load (lines.map String.toList) with
  | .ok s => .ok ((List.range n).map s.mem.read)
  | .error e => .error e.code

theorem test_load_legacy :
    loaded 4 ["+1007", "+9183", "+0043", "-4300"] =
      .ok [word "+010007", word "+009183", word "+000043", word "-043000"] := by decide
theorem test_load_bad_legacy_digit : loaded 1 ["+10a7", "+043000"] = .error 1 := by decide
theorem test_load_without_halt : loaded 1 ["+000043"] = .error 5 := by decide
theorem test_load_bad_word_before_halt_check : loaded 1 ["+01000a"] = .error 1 := by decide
theorem test_load_blank_line : loaded 1 ["+043000", ""] = .error 1 := by decide
theorem test_load_from_text_skips_blank :
    (match State.reset.loadFromText "+010007\n \n+043000\n".toList with
      | .ok s => some s.mem
      | .error _ => none) = some [(0, word "+010007"), (1, word "+043000")] := by decide
theorem test_line_completes_waiting_read :
    (after (hostEvent (.line "42".toList)
      { start [(0, word "+010007")] 0 with pc := 1, fsm := .waitInput 7 })).map (fun s => (s.fsm, s.mem.read 7)) =
    some (.running, word "+000042") := by decide
theorem test_observe_cell : (start [(7, word "-000012")] 0).cellText 7 = some "-000012".toList ∧
    (start [] 0).cellValue 250 = none := by decide
theorem test_fetch_word_runs :
    (after (step (State.reset.withFetchWord 32 0x0040123))).map (fun s => (s.pc, s.fault)) = some (123, none) := by decide
theorem test_listing : Instr.listing (.branchNeg 4) = "BRANCHNEG 4" ∧ dataListing (-7) = "DATA -7" := by decide

/-! ### Witnesses: the hypotheses of each statement, met together -/

theorem witness_DecodeEncodeAgree : (Instr.read 999).wellFormed = true ∧ Instr.halt.wellFormed = true := by decide
theorem witness_OpcodeTableDecodes :
    999 < Config.operandValues ∧ opcode (word "+044000") ∉ [10, 11, 20, 21, 30, 31, 32, 33, 40, 41, 42, 43] := by decide
theorem witness_DecodedInstructionCarriesFields :
    decode (word "-042999") = .ok (.branchZero 999) ∧ decode (word "+043999") = .ok .halt ∧
      (Instr.branchZero 999).operand? = some 999 ∧ Instr.halt.operand? = none := by decide
theorem witness_BcdLayoutRoundTrip : (Instr.multiply 999).wellFormed = true := by decide
theorem witness_CodecRoundTrip :
    (-999999 : Int).natAbs < Config.wordModulus ∧ word "-000001" ≠ ⟨.minus, 0⟩ := by decide
theorem witness_EncodeWritesSignAndPaddedDigits :
    (-9999 : Int).natAbs < 10 ^ 4 ∧ (999999 : Int).natAbs < Config.wordModulus := by decide
theorem witness_TruncateKeepsSignAndLowDigits : (9999 : Int).natAbs < 10 ^ 4 ∧ ¬ (10000 : Int).natAbs < 10 ^ 4 := by decide
theorem witness_TruncationComposes : ((0 : Int) ≤ 1500000 ∧ (0 : Int) ≤ 600000) ∧ (-1500000 : Int) ≤ 0 ∧ (0 : Int) ≤ 0 := by
  decide
theorem witness_QuotientRoundsTowardZero : (-1 : Int) ≠ 0 ∧ (7 : Int) ≠ 0 := by decide
theorem witness_LoadSetsAccumulator : 0 < Config.memoryLength ∧ 249 < Config.memoryLength := by decide
theorem witness_StoreWritesEncodedAccumulator :
    249 < Config.memoryLength ∧ (start [] (-999999)).accInRange ∧ (start [] 0).accInRange := by decide
theorem witness_StoreThenLoadRoundTrips :
    249 < Config.memoryLength ∧ (start [] (-7)).accInRange ∧
      ∃ t u : State, exec (.store 249) (start [] (-7)) = .next t ∧ u.mem.read 249 = t.mem.read 249 :=
  ⟨by decide, by decide, _, _, rfl, rfl⟩
theorem witness_AddCutsExactSum :
    8 < Config.memoryLength ∧ (start [(8, word "+000001")] 999999).accInRange ∧
      (1000000 : Int) = 999999 + ((start [(8, word "+000001")] 999999).mem.read 8).toInt ∧
      (999999 : Int) = 999998 + ((start [(8, word "+000001")] 999998).mem.read 8).toInt ∧
      (-1000000 : Int) = -999999 + ((start [(8, word "-000001")] (-999999)).mem.read 8).toInt := by decide
theorem witness_SubtractCutsExactDifference :
    8 < Config.memoryLength ∧ (start [(8, word "-000001")] 999999).accInRange ∧
      (1000000 : Int) = 999999 - ((start [(8, word "-000001")] 999999).mem.read 8).toInt ∧
      (999999 : Int) = 999998 - ((start [(8, word "-000001")] 999998).mem.read 8).toInt ∧
      (-1000000 : Int) = -999999 - ((start [(8, word "+000001")] (-999999)).mem.read 8).toInt := by decide
theorem witness_DivideTruncatesOrFaults :
    249 < Config.memoryLength ∧ (start [] 999999).accInRange ∧
      ((start [(249, word "-000001")] 999999).mem.read 249).toInt ≠ 0 ∧
      ((start [(249, word "-000000")] 999999).mem.read 249).toInt = 0 := by decide
theorem witness_MultiplyCutsExactProduct : 249 < Config.memoryLength := by decide
theorem witness_ReadStoresFirstValidLine :
    7 < Config.memoryLength ∧ (start [] 3).accInRange ∧
      ({ start [] 3 with input := ["x".toList, "-5".toList, "6".toList] } : State).input =
        ["x".toList] ++ "-5".toList :: ["6".toList] ∧
      (∀ l ∈ ["x".toList], isValidWord l = false) ∧ acceptedValue "-5".toList = some (-5) := by decide
theorem witness_ReadWaitsForValidLine :
    249 < Config.memoryLength ∧
      (∀ l ∈ ({ start [] 3 with input := ["1000000".toList, []] } : State).input, isValidWord l = false) := by decide

/-- A machine in WaitInput: the READ at cell 0 waits for a line. -/
def waiting : State :=
  { start [(0, word "+010007")] 3 with pc := 1, fsm := .waitInput 7 }

theorem witness_LineEndsOrProlongsWait :
    waiting.inv ∧ waiting.fsm = .waitInput 7 ∧ waiting.input = [] ∧ acceptedValue "42".toList = some 42 ∧
      isValidWord "x".toList = false := by decide
theorem witness_WaitWithoutLineChangesNothing : waiting.fsm = .waitInput 7 ∧ waiting.input = [] := by decide
theorem witness_WriteEmitsCellText : 249 < Config.memoryLength ∧ (start [] 999999).accInRange := by decide
theorem witness_BranchSetsProgramCounter : 249 < Config.memoryLength ∧ (start [] (-999999)).accInRange := by decide
theorem witness_BranchNegTakenIffNegative :
    249 < Config.memoryLength ∧ (start [] (-1)).accInRange ∧ (start [] (-1)).acc < 0 ∧ (start [] 0).accInRange ∧
      ¬ (start [] 0).acc < 0 := by decide
theorem witness_BranchZeroTakenIffZero :
    249 < Config.memoryLength ∧ (start [] 0).accInRange ∧ (start [] 0).acc = 0 ∧ (start [] 1).accInRange ∧
      ¬ (start [] 1).acc = 0 := by decide
theorem witness_HaltStopsWithNotice : 999 < Config.operandValues := by decide
theorem witness_BranchUnitChecksTarget :
    ((-1 : Int) < 0 ∨ (250 : Int) ≤ -1) ∧ ((250 : Int) < 0 ∨ (250 : Int) ≤ 250) ∧ ((0 : Int) ≤ 0 ∧ (0 : Int) < 250) ∧
      ((0 : Int) ≤ 249 ∧ (249 : Int) < 250) := by decide
theorem witness_StepRunsDecodedInstruction :
    (start [(0, word "+030008")] 5).canCycle ∧ (start [(0, word "+030008")] 5).stopReq = false ∧
      (start [(0, word "+030008")] 5).fetch = some (word "+030008") ∧ decode (word "+030008") = .ok (.add 8) := by decide
theorem witness_OperandOutOfRangeFaults :
    (start [(0, word "+020250")] 5).canCycle ∧ (start [(0, word "+020250")] 5).stopReq = false ∧
      (start [(0, word "+020250")] 5).fetch = some (word "+020250") ∧ opcode (word "+020250") ≠ 43 ∧
      Config.memoryLength ≤ operand (word "+020250") ∧ opcode (word "+020249") ≠ 43 ∧
      operand (word "+020249") < Config.memoryLength := by decide
theorem witness_OperandOutOfRangeFaults_passes :
    (start [(0, word "+020249")] 5).canCycle ∧ (start [(0, word "+020249")] 5).stopReq = false ∧
      (start [(0, word "+020249")] 5).fetch = some (word "+020249") ∧
      ∃ t, step (start [(0, word "+020249")] 5) = .next t :=
  ⟨by decide, by decide, by decide, _, rfl⟩
theorem witness_UnknownOpcodeFaults :
    (start [(0, word "+044249")] 5).canCycle ∧ (start [(0, word "+044249")] 5).stopReq = false ∧
      (start [(0, word "+044249")] 5).fetch = some (word "+044249") ∧
      opcode (word "+044249") ∉ [10, 11, 20, 21, 30, 31, 32, 33, 40, 41, 42, 43] ∧
      operand (word "+044249") < Config.memoryLength := by decide
theorem witness_FetchPastEndFaults :
    ({ start [] 5 with pc := 250 } : State).canCycle ∧ ({ start [] 5 with pc := 250 } : State).stopReq = false ∧
      Config.memoryLength ≤ ({ start [] 5 with pc := 250 } : State).pc := by decide
theorem witness_FaultsArePrecise :
    State.reset.inv ∧ State.reset.fault = none ∧
      ∃ t, step State.reset = .next t ∧ t.fault = some (.invalidOpcode 0) :=
  ⟨by decide, rfl, _, rfl, rfl⟩
theorem witness_EndedMachineIgnoresRequests :
    State.reset.halt.active = false ∧ (State.reset.raise .divideByZero).active = false := by decide
theorem witness_OnlyResetOrLoadLeavesEnd :
    State.reset.halt.inv ∧ State.reset.halt.active = false ∧
      ∃ t, hostEvent .reset State.reset.halt = .next t ∧ t.active = true :=
  ⟨by decide, by decide, _, rfl, by decide⟩
theorem witness_StopRequestSeenAtTopOfCycle :
    ({ State.reset with stopReq := true } : State).canCycle ∧ ({ State.reset with stopReq := true } : State).stopReq = true ∧
      waiting.active = true ∧ waiting.fsm = .waitInput 7 ∧ ∃ t, step waiting = .next t :=
  ⟨by decide, rfl, by decide, rfl, _, rfl⟩
theorem witness_StepKeepsInvariant :
    State.reset.inv ∧ (∃ t, step State.reset = .next t) ∧ waiting.inv ∧ (∃ t, step waiting = .next t) :=
  ⟨by decide, ⟨_, rfl⟩, by decide, _, rfl⟩
theorem witness_StepAlwaysAnswers : 
    waiting.inv ∧ ({ start [(249, word "+043000")] (-999999) with fsm := .running } : State).inv := by decide
theorem witness_HostEventsKeepInvariant : waiting.inv ∧ State.reset.halt.inv := by decide
theorem witness_StepResultTellsOutcome :
    (start [(0, word "+040007")] 0).inv ∧
      ∃ t, step (start [(0, word "+040007")] 0) = .next t ∧ t.stepResult = some .continuing :=
  ⟨by decide, _, rfl, rfl⟩
theorem witness_ProgramCounterAdvancesOrBranches :
    (start [(0, word "+040249")] 0).inv ∧ ∃ t, step (start [(0, word "+040249")] 0) = .next t ∧ t.pc = 249 :=
  ⟨by decide, _, rfl, rfl⟩
theorem witness_OutputGrowsByWriteAndHalt :
    (start [(0, word "+011000")] 0).inv ∧
      ∃ t, step (start [(0, word "+011000")] 0) = .next t ∧ t.output = [.word "+011000".toList] :=
  ⟨by decide, _, rfl, by decide⟩
theorem witness_CanonicalMemoriesReadAlikeAreEqual :
    Memory.wf (cells [(9, word "+000001"), (3, word "-000000")]) ∧
      Memory.wf (cells [(3, word "-000000"), (9, word "+000001")]) := by decide
/-- A machine in Running about to store 5 in cell 9. -/
def storing : State :=
  { start [(0, word "+021009")] 5 with fsm := .running }

theorem witness_OnlyReadAndStoreWriteMemory :
    storing.inv ∧ ∃ t, step storing = .next t ∧ t.mem.read 9 ≠ storing.mem.read 9 :=
  ⟨by decide, _, rfl, by decide⟩
theorem witness_OnlyLoadAndArithmeticWriteAccumulator :
    (start [(0, word "+020000")] 0).inv ∧ ∃ t, step (start [(0, word "+020000")] 0) = .next t ∧ t.acc ≠ 0 :=
  ⟨by decide, _, rfl, by decide⟩
theorem witness_HaltedOnlyByHaltOrStop :
    (start [(0, word "+043000")] 0).inv ∧ (start [(0, word "+043000")] 0).halted = false ∧
      (∃ t, step (start [(0, word "+043000")] 0) = .next t ∧ t.halted = true) ∧
      State.reset.halt.inv ∧ State.reset.halt.halted = true ∧ ∃ t, step State.reset.halt = .next t :=
  ⟨by decide, rfl, ⟨_, rfl, rfl⟩, by decide, rfl, _, rfl⟩
theorem witness_OnlyReadLooksAtInput :
    State.reset.waits = false ∧ State.reset.fetch.map opcode ≠ some 10 ∧ ∃ t, step State.reset = .next t :=
  ⟨by decide, by decide, _, rfl⟩

/-- A machine about to store a HALT word over the next instruction (vector V-LS9). -/
def rewriting : State :=
  start [(0, word "+021001"), (1, word "+040001")] 43000

theorem witness_FetchSeesStoredWord :
    1 < Config.memoryLength ∧ rewriting.accInRange ∧
      (∃ t, exec (.store 1) rewriting = .next t ∧ t.pc = 1 ∧ t.canCycle ∧ t.stopReq = false) ∧
      decode (Word.ofInt rewriting.acc) = .ok .halt :=
  ⟨by decide, by decide, ⟨_, rfl, rfl, by decide, rfl⟩, by decide⟩
theorem witness_LoadInstallsImage : ∃ t, State.reset.load ["+4300".toList] = .ok t := ⟨_, rfl⟩
theorem witness_LegacyWordMigrates : 9999 < 10000 ∧ (4399 / 100) ∈ [10, 11, 20, 21, 30, 31, 32, 33, 40, 41, 42, 43] := by
  decide

end Sys2Proof.Tests
end

section
/-! PROOFS. The decoder against the closed opcode table (30_encoding.md R84, R85): what its answer is once the two
fields of a word are known, and O2. -/

namespace Sys2Proof.Machine

/-- Every instruction stands in a row of the table (30_encoding.md R84). -/
theorem opcode_mem_opcodeTable (i : Instr) : i.opcode ∈ opcodeTable := by
  cases i <;> simp [Instr.opcode, opcodeTable]

/-- The converse of `decode_eq_ok`: the fields of a word alone determine the instruction; HALT, which has no operand,
asks nothing of the operand field (30_encoding.md R84, R89). -/
theorem decode_of_fields {w : Word} {i : Instr} (hopc : opcode w = i.opcode)
    (hopr : ∀ a, i.operand? = some a → operand w = a) : decode w = .ok i := by
  unfold decode
  cases i with
  | halt => simp [hopc, Instr.opcode]
  | _ a => simp [hopc, Instr.opcode, hopr a rfl]

/-- A word built in format W from the instruction's opcode and its operand, under any sign, decodes to the instruction
(30_encoding.md R80, R83, R84). -/
theorem decode_instrWord {i : Instr} {a : Nat} (sg : Sign) (ha : a < Config.operandValues)
    (hi : i.operand? = some a ∨ i.operand? = none) : decode (instrWord sg i.opcode a) = .ok i := by
  have hopc : i.opcode < 1000 := by cases i <;> simp [Instr.opcode]
  refine decode_of_fields (opcode_instrWord sg hopc ha) fun b hb => ?_
  rw [operand_instrWord sg hopc ha]
  simpa [hb, eq_comm] using hi

/-- The table is closed: an opcode of no row is refused, and the refusal names it (30_encoding.md R85). -/
theorem decode_of_opcode_not_mem {w : Word} (h : opcode w ∉ opcodeTable) :
    decode w = .error (.illegalOpcode (opcode w)) := by
  cases hd : decode w with
  | ok i =>
    obtain ⟨hopc, -⟩ := decode_eq_ok hd
    exact absurd (hopc ▸ opcode_mem_opcodeTable i) h
  | error e =>
    obtain ⟨he, -⟩ := decode_eq_error hd
    rw [he]

/-- Settles O2: each row is `decode_instrWord` at that row's instruction, and the refusals are
`decode_of_opcode_not_mem`. -/
theorem opcodeTableDecodes : Obligations.OpcodeTableDecodes := by
  refine ⟨fun sg a ha => ?_, fun w hw => decode_of_opcode_not_mem hw⟩
  have row (i : Instr) (hi : i.operand? = some a) : decode (instrWord sg i.opcode a) = .ok i :=
    decode_instrWord sg ha (.inl hi)
  exact ⟨row (.read a) rfl, row (.write a) rfl, row (.load a) rfl, row (.store a) rfl, row (.add a) rfl,
    row (.subtract a) rfl, row (.divide a) rfl, row (.multiply a) rfl, row (.branch a) rfl, row (.branchNeg a) rfl,
    row (.branchZero a) rfl, decode_instrWord (i := .halt) sg ha (.inr rfl)⟩

end Sys2Proof.Machine
end

section
/-! PROOFS. The overflow unit and the operand check of the cycle (40_cycle.md R105, R108): O12 and O33. -/

namespace Sys2Proof.Machine

/-- Every branch of the overflow unit is the one formula (40_cycle.md R108): in range the remainder is the magnitude
itself, and out of range a value that is not positive is negative, since 0 is in range. -/
theorem truncateTo_eq_sign_mul_mod (width : Nat) (v : Int) :
    truncateTo width v = v.sign * ((v.natAbs % 10 ^ width : Nat) : Int) := by
  by_cases hin : v.natAbs < 10 ^ width
  · rw [truncateTo_of_lt hin, Nat.mod_eq_of_lt hin, Int.sign_mul_natAbs]
  · rw [truncateTo, if_neg hin]
    split
    · rename_i hpos
      rw [Int.sign_eq_one_of_pos hpos, one_mul]
    · have hne : v ≠ 0 := by
        rintro rfl
        exact hin (by simp)
      rw [Int.sign_eq_neg_one_of_neg (by omega), neg_one_mul]

/-- Settles O12: the formula at every width, read at this hardware's width through `wordModulus_eq_pow`. -/
theorem truncateKeepsSignAndLowDigits : Obligations.TruncateKeepsSignAndLowDigits := by
  refine ⟨fun width v => ⟨truncateTo_of_lt, truncateTo_eq_sign_mul_mod width v⟩, fun v => ?_⟩
  rw [wordModulus_eq_pow]
  exact truncateTo_eq_sign_mul_mod Config.wordLength v

/-- A step that can perform a cycle, no stop request standing, executes the word it fetches (40_cycle.md R110). -/
theorem step_of_fetch {s : State} {w : Word} (hcan : s.canCycle) (hstop : s.stopReq = false)
    (hfetch : s.fetch = some w) : step s = executeWord w s.beginCycle := by
  obtain ⟨hact, hwaits⟩ := hcan
  have hcycle : cycle s = executeWord w s.beginCycle := by simp [cycle, hstop, hfetch]
  unfold step stepRequest
  rw [if_pos hact]
  split
  · rename_i a hfsm
    exact absurd hfsm (State.waits_eq_false.mp hwaits a)
  · exact hcycle

/-- The operand check comes first for legal and illegal words alike, HALT alone excepted (40_cycle.md R105). -/
theorem executeWord_of_operand_ge {w : Word} {s : State} (hopc : opcode w ≠ 43)
    (hopr : Config.memoryLength ≤ operand w) :
    executeWord w s = .next (s.raise (.invalidMemoryAddress (operand w))) := by
  unfold executeWord
  split
  · rename_i i hi
    obtain ⟨hop, rfl | hoperand⟩ := decode_eq_ok hi
    · exact absurd hop.symm hopc
    · exact exec_of_operand_ge hoperand hopr
  · exact checkOperand_of_ge hopr

/-- Waiting for a line raises no fault (41_io.md R132). -/
theorem awaitLine_fault {a : Nat} {lines : List Text} {s t : State} (h : awaitLine a lines s = .next t) :
    t.fault = s.fault := by
  rcases awaitLine_cases h with ⟨_, _, _, _, -, -, -, -, rfl⟩ | ⟨-, rfl⟩ <;> rfl

/-- The one fault an instruction can raise past its operand check is that of DIVIDE (60_exceptions.md R203). -/
theorem execEffect_fault {i : Instr} {s t : State} (h : execEffect i s t) :
    t.fault = s.fault ∨ t.fault = some .divideByZero := by
  cases i with
  | read a => exact .inl (awaitLine_fault (s := s.advance.emit .inputRequest) h)
  | divide a =>
    rcases h with ⟨-, rfl⟩ | ⟨-, rfl⟩
    · exact .inr rfl
    · exact .inl rfl
  | branchNeg a | branchZero a =>
    cases h
    rw [State.truncateAcc_fault]
    split <;> exact .inl rfl
  | _ =>
    cases h
    exact .inl rfl

/-- What a fetched word whose operand passes the check can leave in the latch: what stood there, the fault of DIVIDE,
or that of an opcode outside the table (60_exceptions.md R202, R203). -/
theorem executeWord_fault_of_operand_lt {w : Word} {s t : State} (hopr : operand w < Config.memoryLength)
    (h : executeWord w s = .next t) :
    t.fault = s.fault ∨ t.fault = some .divideByZero ∨ t.fault = some (.invalidOpcode (opcode w)) := by
  rcases executeWord_cases h with ⟨i, hi, hexec⟩ | ⟨-, hillegal⟩
  · rcases exec_cases hexec with ⟨a, ha, hge, -⟩ | ⟨-, heffect⟩
    · obtain ⟨-, rfl | hoperand⟩ := decode_eq_ok hi
      · cases ha
      · have haw : operand w = a := Option.some.inj (hoperand.symm.trans ha)
        omega
    · exact (execEffect_fault heffect).imp_right .inl
  · rcases illegalWord_cases.mp hillegal with ⟨-, rfl⟩ | ⟨hge, -⟩
    · exact .inr (.inr rfl)
    · omega

/-- Settles O33: `executeWord_of_operand_ge` for an operand not below `N`; below it, the latch was empty and
`executeWord_fault_of_operand_lt` lists what it can hold afterwards. -/
theorem operandOutOfRangeFaults : Obligations.OperandOutOfRangeFaults := by
  intro s w hcan hstop hfetch hopc
  rw [step_of_fetch hcan hstop hfetch]
  refine ⟨fun hge => executeWord_of_operand_ge hopc hge, fun hlt t x ht => ?_⟩
  obtain ⟨hact, -⟩ := hcan
  obtain ⟨hnone, -⟩ := State.active_eq_true.mp hact
  rcases executeWord_fault_of_operand_lt hlt ht with h | h | h <;> simp [h, hnone]

end Sys2Proof.Machine
end

section
/-! PROOFS. The output of the I/O port (41_io.md R133, R137): O26. -/

namespace Sys2Proof.Machine

/-- Every address of a cell can stand in a word's operand field (30_encoding.md R82). -/
theorem lt_operandValues_of_lt_memoryLength {a : Nat} (ha : a < Config.memoryLength) : a < Config.operandValues :=
  ha.trans (by decide)

/-- WRITE with the truncation step on an accumulator in range, so that the advance and the one event are its whole
effect (41_io.md R137, 40_cycle.md R109). -/
theorem exec_write_of_inRange {s : State} {a : Nat} (ha : a < Config.memoryLength) (hacc : s.accInRange) :
    exec (.write a) s = .next (s.advance.emit (.word (s.mem.read a).text)) := by
  have hkeep : (s.advance.emit (.word (s.mem.read a).text)).accInRange := hacc
  calc exec (.write a) s
      = .next (s.advance.emit (.word (s.mem.read a).text)).truncateAcc := execWrite_of_lt ha
    _ = .next (s.advance.emit (.word (s.mem.read a).text)) := by rw [State.truncateAcc_of_inRange hkeep]

/-- Settles O26: the row of WRITE in the table is `decode_instrWord`, the effect `exec_write_of_inRange`; the frame and
the framing of a word line are the definitions of `advance`, `emit` and `framed`. -/
theorem writeEmitsCellText : Obligations.WriteEmitsCellText := by
  intro s a ha hacc
  refine ⟨fun sg => ?_, exec_write_of_inRange ha hacc, rfl⟩
  exact decode_instrWord (i := .write a) sg (lt_operandValues_of_lt_memoryLength ha) (.inl rfl)

end Sys2Proof.Machine
end

section
/-! PROOFS. LOAD, STORE and the value an encoded accumulator keeps (42_load_store.md R150 to R152): O15, O16, O17. -/

namespace Sys2Proof

/-- The magnitude of an encoded value in the codec's domain is the value's own (20_memory.md R51). -/
theorem Word.mag_ofInt {v : Int} (hv : v.natAbs < Config.wordModulus) : (Word.ofInt v).mag.val = v.natAbs :=
  Nat.mod_eq_of_lt hv

/-- Decoding undoes encoding on the codec's domain: the sign the encoder wrote is the one the magnitude lost
(20_memory.md R51, R52). -/
theorem Word.toInt_ofInt {v : Int} (hv : v.natAbs < Config.wordModulus) : (Word.ofInt v).toInt = v := by
  have hdecode : (Word.ofInt v).toInt = signed (signOf v) v.natAbs := by
    rw [Word.toInt, Word.mag_ofInt hv]
    rfl
  rw [hdecode, signOf]
  by_cases hnonneg : 0 ≤ v
  · rw [if_pos hnonneg]
    exact Int.natAbs_of_nonneg hnonneg
  · rw [if_neg hnonneg, signed]
    omega

/-- The encoder never writes `-000000`: that word's value is 0, and 0 is encoded under `+` (20_memory.md R51). The
bound is needed: outside the domain a negative multiple of `M` loses its magnitude and keeps its sign. -/
theorem Word.ofInt_ne_minus_zero {v : Int} (hv : v.natAbs < Config.wordModulus) : Word.ofInt v ≠ ⟨.minus, 0⟩ := by
  intro h
  have hzero : v = 0 := by
    calc v = (Word.ofInt v).toInt := (Word.toInt_ofInt hv).symm
      _ = Word.toInt ⟨.minus, 0⟩ := by rw [h]
      _ = 0 := rfl
  subst hzero
  exact absurd h (by decide)

namespace Machine

/-- Settles O15: the row of LOAD in the table is `decode_instrWord`, the effect `execLoad_of_lt`, and the bound that of
every word's value. -/
theorem loadSetsAccumulator : Obligations.LoadSetsAccumulator := by
  intro s a ha
  refine ⟨fun sg => ?_, execLoad_of_lt ha, Word.toInt_natAbs_lt _⟩
  exact decode_instrWord (i := .load a) sg (lt_operandValues_of_lt_memoryLength ha) (.inl rfl)

/-- STORE with the truncation step on an accumulator in range, so that the advance and the one cell are its whole
effect (42_load_store.md R151, 40_cycle.md R109). -/
theorem exec_store_of_inRange {s : State} {a : Nat} (ha : a < Config.memoryLength) (hacc : s.accInRange) :
    exec (.store a) s = .next { s.advance with mem := s.mem.write a (Word.ofInt s.acc) } := by
  have hkeep : State.accInRange { s.advance with mem := s.mem.write a (Word.ofInt s.acc) } := hacc
  calc exec (.store a) s
      = .next (State.truncateAcc { s.advance with mem := s.mem.write a (Word.ofInt s.acc) }) := execStore_of_lt ha
    _ = .next { s.advance with mem := s.mem.write a (Word.ofInt s.acc) } := by rw [State.truncateAcc_of_inRange hkeep]

/-- Settles O16: the state is that of `exec_store_of_inRange`; what its memory reads at the operand and elsewhere is
the read-after-write pair of the memory array. -/
theorem storeWritesEncodedAccumulator : Obligations.StoreWritesEncodedAccumulator := by
  intro s a ha hacc
  have hread : (s.mem.write a (Word.ofInt s.acc)).read a = Word.ofInt s.acc := Memory.read_write_same _ _ _
  refine ⟨fun sg => ?_, _, exec_store_of_inRange ha hacc, hread, ?_, ?_, fun b hb => ?_, rfl⟩
  · exact decode_instrWord (i := .store a) sg (lt_operandValues_of_lt_memoryLength ha) (.inl rfl)
  · exact (congrArg Word.toInt hread).trans (Word.toInt_ofInt hacc)
  · exact hread.trans_ne (Word.ofInt_ne_minus_zero hacc)
  · exact Memory.read_write_other _ _ hb

/-- Settles O17: O15 gives the later LOAD the cell's value, and O16 says that value is the accumulator's. -/
theorem storeThenLoadRoundTrips : Obligations.StoreThenLoadRoundTrips := by
  intro s t u a ha hacc hstore hcell
  obtain ⟨-, t', hstore', -, hvalue, -⟩ := storeWritesEncodedAccumulator s a ha hacc
  obtain ⟨-, hload, -⟩ := loadSetsAccumulator u a ha
  obtain rfl : t = t' := next_inj.mp (hstore.symm.trans hstore')
  refine ⟨_, hload, ?_⟩
  calc (u.mem.read a).toInt = (t.mem.read a).toInt := by rw [hcell]
    _ = s.acc := hvalue

end Machine

end Sys2Proof
end

section
/-! PROOFS. ADD, SUBTRACT, DIVIDE and MULTIPLY (43_arithmetic.md R160 to R165): O18 to O21. -/

namespace Sys2Proof.Machine

/-- The one formula of the overflow unit at this hardware's six digits (40_cycle.md R108). -/
theorem truncate_eq_sign_mul_mod (v : Int) : truncate v = v.sign * ((v.natAbs % 1000000 : Nat) : Int) :=
  truncateKeepsSignAndLowDigits.2 v

/-- Below `2M` the remainder takes at most one leading 1 away, so the overflow unit moves the value toward 0 by `M` at
most once (43_arithmetic.md R162). -/
theorem truncate_of_natAbs_lt_two_mul {v : Int} (hv : v.natAbs < 2 * Config.wordModulus) :
    truncate v = if v.natAbs < 1000000 then v else if 0 < v then v - 1000000 else v + 1000000 := by
  split
  next hin => exact truncate_of_lt hin
  next hout =>
    have hmod : v.natAbs % 1000000 = v.natAbs - 1000000 := by
      have hlt : v.natAbs < 2 * 1000000 := hv
      omega
    rw [truncate_eq_sign_mul_mod, hmod]
    split
    next hpos =>
      rw [Int.sign_eq_one_of_pos hpos, one_mul]
      omega
    next hneg =>
      have hlt : v < 0 := by omega
      rw [Int.sign_eq_neg_one_of_neg hlt, neg_one_mul]
      omega

/-- The overflow unit on a product: sign and magnitude multiply separately (43_arithmetic.md R165). -/
theorem truncate_mul (x y : Int) :
    truncate (x * y) = x.sign * y.sign * ((x.natAbs * y.natAbs % 1000000 : Nat) : Int) := by
  rw [truncate_eq_sign_mul_mod, Int.sign_mul, Int.natAbs_mul]

/-- The model's quotient is the truncating quotient of the integers (43_arithmetic.md R164): the magnitudes agree, equal
signs make that quotient not negative, and different ones make it not positive. -/
theorem quotient_eq_tdiv (n : Int) {m : Int} (hm : m ≠ 0) : quotient n m = n.tdiv m := by
  have hmag : n.natAbs / m.natAbs = (n.tdiv m).natAbs := (Int.natAbs_tdiv n m).symm
  rw [quotient, hmag]
  split
  next hsame =>
    have hnonneg : 0 ≤ n.tdiv m := by
      rcases lt_or_gt_of_ne hm with hneg | hpos
      · have hn : n < 0 := Int.neg_of_sign_eq_neg_one (hsame.trans (Int.sign_eq_neg_one_of_neg hneg))
        exact Int.tdiv_nonneg_of_nonpos_of_nonpos hn.le hneg.le
      · have hn : 0 < n := Int.pos_of_sign_eq_one (hsame.trans (Int.sign_eq_one_of_pos hpos))
        exact Int.tdiv_nonneg hn.le hpos.le
    exact Int.natAbs_of_nonneg hnonneg
  next hdiff =>
    have hnonpos : n.tdiv m ≤ 0 := by
      rcases lt_or_gt_of_ne hm with hneg | hpos
      · have hn : 0 ≤ n := not_lt.mp fun hlt =>
          hdiff ((Int.sign_eq_neg_one_of_neg hlt).trans (Int.sign_eq_neg_one_of_neg hneg).symm)
        exact Int.tdiv_nonpos_of_nonneg_of_nonpos hn hneg.le
      · have hn : n ≤ 0 := not_lt.mp fun hgt =>
          hdiff ((Int.sign_eq_one_of_pos hgt).trans (Int.sign_eq_one_of_pos hpos).symm)
        have hflip : 0 ≤ (-n).tdiv m := Int.tdiv_nonneg (Int.neg_nonneg.mpr hn) hpos.le
        rwa [Int.neg_tdiv, Int.neg_nonneg] at hflip
    rw [Int.ofNat_natAbs_of_nonpos hnonpos, neg_neg]

/-- In absolute value the quotient does not exceed the dividend, so it never overflows (43_arithmetic.md R164). -/
theorem truncate_quotient {n m : Int} (hn : n.natAbs < Config.wordModulus) (hm : m ≠ 0) :
    truncate (quotient n m) = n.tdiv m := by
  rw [quotient_eq_tdiv n hm]
  exact truncate_of_lt ((Int.natAbs_tdiv_le_natAbs n m).trans_lt hn)

/-- An arithmetic instruction past its operand check, its whole effect being the advance and the cut result
(43_arithmetic.md R160). -/
theorem arithmetic_of_truncate_eq {op : Int → Int → Int} {s : State} {a : Nat} {v : Int}
    (ha : a < Config.memoryLength) (hcut : truncate (op s.acc (s.mem.read a).toInt) = v) :
    arithmetic op a s = .next { s with pc := s.pc + 1, acc := v } := by
  rw [arithmetic_of_lt ha, hcut]
  rfl

/-- Settles O18: the sum of two values of magnitude below `M` stays below `2M`, so that it is cut once. -/
theorem addCutsExactSum : Obligations.AddCutsExactSum := by
  rintro s a x ha hacc rfl
  have hcell := Word.toInt_natAbs_lt (s.mem.read a)
  have hcut := truncate_of_natAbs_lt_two_mul (v := s.acc + (s.mem.read a).toInt) (by omega)
  refine ⟨fun sg => ?_, arithmetic_of_truncate_eq ha hcut, hcut⟩
  exact decode_instrWord (i := .add a) sg (lt_operandValues_of_lt_memoryLength ha) (.inl rfl)

/-- Settles O19: the difference of two values of magnitude below `M` stays below `2M`, so that it is cut once. -/
theorem subtractCutsExactDifference : Obligations.SubtractCutsExactDifference := by
  rintro s a x ha hacc rfl
  have hcell := Word.toInt_natAbs_lt (s.mem.read a)
  have hcut := truncate_of_natAbs_lt_two_mul (v := s.acc - (s.mem.read a).toInt) (by omega)
  refine ⟨fun sg => ?_, arithmetic_of_truncate_eq ha hcut, hcut⟩
  exact decode_instrWord (i := .subtract a) sg (lt_operandValues_of_lt_memoryLength ha) (.inl rfl)

/-- Settles O20: `execDivide_of_lt` splits on the divisor, and `truncate_quotient` says the truncation step keeps the
quotient. -/
theorem divideTruncatesOrFaults : Obligations.DivideTruncatesOrFaults := by
  intro s a ha hacc
  refine ⟨fun sg => ?_, fun hne => ?_, fun hzero => (execDivide_of_lt ha).trans (if_pos hzero)⟩
  · exact decode_instrWord (i := .divide a) sg (lt_operandValues_of_lt_memoryLength ha) (.inl rfl)
  · calc exec (.divide a) s
        = .next (s.advance.setAcc (truncate (quotient s.acc (s.mem.read a).toInt))) :=
          (execDivide_of_lt ha).trans (if_neg hne)
      _ = .next (s.advance.setAcc (s.acc.tdiv (s.mem.read a).toInt)) := by rw [truncate_quotient hacc hne]

/-- Settles O21: the effect is that of every arithmetic instruction, with the cut product of `truncate_mul`. -/
theorem multiplyCutsExactProduct : Obligations.MultiplyCutsExactProduct := by
  intro s a ha
  have hcut := truncate_mul s.acc (s.mem.read a).toInt
  refine ⟨fun sg => ?_, arithmetic_of_truncate_eq ha hcut, hcut⟩
  exact decode_instrWord (i := .multiply a) sg (lt_operandValues_of_lt_memoryLength ha) (.inl rfl)

end Sys2Proof.Machine
end

section
/-! PROOFS. The branch instructions (44_control.md R181 to R183): O27, O28, O29. -/

namespace Sys2Proof.Machine

/-- The truncation step leaves a jump alone: `pc` is all it changed, and the accumulator is still in range
(40_cycle.md R109). -/
theorem State.truncateAcc_jump {s : State} (a : Nat) (hacc : s.accInRange) :
    (s.jump a).truncateAcc = { s with pc := a } :=
  State.truncateAcc_of_inRange (s := s.jump a) hacc

/-- The same of a branch not taken: the advanced `pc` stands (44_control.md R182, R183). -/
theorem State.truncateAcc_advance {s : State} (hacc : s.accInRange) :
    s.advance.truncateAcc = { s with pc := s.pc + 1 } :=
  State.truncateAcc_of_inRange (s := s.advance) hacc

/-- Both outcomes of a conditional branch after the truncation step: its condition chooses the next `pc` and nothing
else (44_control.md R182, R183). -/
theorem State.truncateAcc_jump_or_advance {s : State} (p : Prop) [Decidable p] (a : Nat) (hacc : s.accInRange) :
    (if p then s.jump a else s.advance).truncateAcc = { s with pc := if p then a else s.pc + 1 } := by
  split
  next => exact State.truncateAcc_jump a hacc
  next => exact State.truncateAcc_advance hacc

/-- Settles O27: the row of BRANCH in the table is `decode_instrWord`, the effect `execBranch_of_lt`. -/
theorem branchSetsProgramCounter : Obligations.BranchSetsProgramCounter := by
  intro s a ha hacc
  refine ⟨fun sg => ?_, ?_⟩
  · exact decode_instrWord (i := .branch a) sg (lt_operandValues_of_lt_memoryLength ha) (.inl rfl)
  · calc exec (.branch a) s
        = .next (s.jump a).truncateAcc := execBranch_of_lt ha
      _ = .next { s with pc := a } := by rw [State.truncateAcc_jump a hacc]

/-- Settles O28: `execBranchNeg_of_lt` splits on the accumulator's sign, and `truncateAcc_jump_or_advance` says that the
split reaches `pc` only. -/
theorem branchNegTakenIffNegative : Obligations.BranchNegTakenIffNegative := by
  intro s a ha hacc
  refine ⟨fun sg => ?_, ?_⟩
  · exact decode_instrWord (i := .branchNeg a) sg (lt_operandValues_of_lt_memoryLength ha) (.inl rfl)
  · calc exec (.branchNeg a) s
        = .next (if s.acc < 0 then s.jump a else s.advance).truncateAcc := execBranchNeg_of_lt ha
      _ = .next { s with pc := if s.acc < 0 then a else s.pc + 1 } := by
          rw [State.truncateAcc_jump_or_advance _ a hacc]

/-- Settles O29: as for BRANCH-NEG, the split of `execBranchZero_of_lt` being on a zero accumulator. -/
theorem branchZeroTakenIffZero : Obligations.BranchZeroTakenIffZero := by
  intro s a ha hacc
  refine ⟨fun sg => ?_, ?_⟩
  · exact decode_instrWord (i := .branchZero a) sg (lt_operandValues_of_lt_memoryLength ha) (.inl rfl)
  · calc exec (.branchZero a) s
        = .next (if s.acc = 0 then s.jump a else s.advance).truncateAcc := execBranchZero_of_lt ha
      _ = .next { s with pc := if s.acc = 0 then a else s.pc + 1 } := by
          rw [State.truncateAcc_jump_or_advance _ a hacc]

end Sys2Proof.Machine
end

section
/-! PROOFS. The fault of an opcode outside the closed table (60_exceptions.md R202): O34. -/

namespace Sys2Proof.Machine

/-- A word of no row of the table whose operand passes the check, the other side of `executeWord_of_operand_ge`:
dispatch comes after the advance, so that the fault is taken with `pc` past the word (40_cycle.md R105 to R107). -/
theorem executeWord_of_opcode_not_mem {w : Word} {s : State} (hopc : opcode w ∉ opcodeTable)
    (hopr : operand w < Config.memoryLength) :
    executeWord w s = .next (s.advance.raise (.invalidOpcode (opcode w))) :=
  calc executeWord w s
    _ = illegalWord w s := by rw [executeWord, decode_of_opcode_not_mem hopc]
    _ = .next (s.advance.raise (.invalidOpcode (opcode w))) := checkOperand_of_lt hopr

/-- Settles O34: the step executes the fetched word, which `executeWord_of_opcode_not_mem` answers; the Running that the
cycle's begin wrote to the FSM is overwritten by the fault's Faulted, and all else is as before the cycle. -/
theorem unknownOpcodeFaults : Obligations.UnknownOpcodeFaults := by
  intro s w hcan hstop hfetch hopc hopr
  calc step s
    _ = executeWord w s.beginCycle := step_of_fetch hcan hstop hfetch
    _ = .next (s.beginCycle.advance.raise (.invalidOpcode (opcode w))) := executeWord_of_opcode_not_mem hopc hopr
    _ = .next (State.raise { s with pc := s.pc + 1 } (.invalidOpcode (opcode w))) := rfl

end Sys2Proof.Machine
end

section
/-! PROOFS. The loader's size check (70_reset_and_hazards.md R239): O56. -/

namespace Sys2Proof.Machine

/-- A load fails exactly as the checks of its lines fail, whatever the core's state (70_reset_and_hazards.md R245). -/
theorem State.load_eq_error_iff {s : State} {lines : List Text} {e : LoadError} :
    s.load lines = .error e ↔ checkProgram lines = .error e := by
  unfold State.load
  cases checkProgram lines <;> simp

/-- More lines than cells: no line is looked at (70_reset_and_hazards.md R239). -/
theorem checkProgram_of_gt {lines : List Text} (h : Config.memoryLength < lines.length) :
    checkProgram lines = .error .programTooLarge := if_pos h

/-- The checks after the size check blame a line or the absence of HALT (70_reset_and_hazards.md R243, R244). -/
theorem checkProgram_ne_programTooLarge {lines : List Text} (h : lines.length ≤ Config.memoryLength) :
    checkProgram lines ≠ .error .programTooLarge := by
  rw [checkProgram, if_neg (Nat.not_lt.mpr h)]
  cases hlines : validateLines lines with
  | error e =>
    obtain ⟨_, _, _, _, rfl, _⟩ := validateLines_eq_error hlines
    simp
  | ok ws => cases hhalt : ws.any isHaltWord <;> simp [hhalt]

/-- Settles O56: the size check decides alone when it fails (`checkProgram_of_gt`), and no later check answers with its
error (`checkProgram_ne_programTooLarge`). -/
theorem tooManyLinesRejectedFirst : Obligations.TooManyLinesRejectedFirst := by
  intro s lines
  rw [State.load_eq_error_iff]
  refine ⟨fun herr => ?_, checkProgram_of_gt⟩
  by_contra hfit
  exact checkProgram_ne_programTooLarge (Nat.not_lt.mp hfit) herr

end Sys2Proof.Machine
end

section
/-! PROOFS. The invariant of the machine under every step and every event of the host (20_memory.md section 2,
10_state.md sections 3 to 6, 70_reset_and_hazards.md): O42, O43, O44, O45, O46. -/

namespace Sys2Proof.Machine

/-! ### The FSM states (10_state.md R31): what coherence asks in each -/

theorem State.fsmCoherent_ready {s : State} (h : s.fsm = .ready) :
    s.fsmCoherent = true ↔ s.halted = false ∧ s.fault = none ∧ s.pc = 0 ∧ s.acc = 0 := by
  simp [State.fsmCoherent, h, and_assoc]

theorem State.fsmCoherent_running {s : State} (h : s.fsm = .running) :
    s.fsmCoherent = true ↔ s.halted = false ∧ s.fault = none := by
  simp [State.fsmCoherent, h]

theorem State.fsmCoherent_waitInput {s : State} {a : Nat} (h : s.fsm = .waitInput a) :
    s.fsmCoherent = true ↔ s.halted = false ∧ s.fault = none ∧ a < Config.memoryLength ∧ 0 < s.pc ∧
      opcode (s.mem.read (s.pc - 1)) = 10 ∧ operand (s.mem.read (s.pc - 1)) = a := by
  simp [State.fsmCoherent, h, and_assoc]

theorem State.fsmCoherent_halted {s : State} (h : s.fsm = .halted) :
    s.fsmCoherent = true ↔ s.halted = true ∧ s.fault = none := by
  simp [State.fsmCoherent, h]

theorem State.fsmCoherent_faulted {s : State} (h : s.fsm = .faulted) :
    s.fsmCoherent = true ↔ s.halted = false ∧ s.fault.isSome = true := by
  simp [State.fsmCoherent, h]

/-! ### A state within a cycle -/

/-- The invariant as it stands while a cycle runs: what every operation of a cycle finds and, unless it ends the run or
makes a READ wait, leaves. -/
structure State.InCycle (s : State) : Prop where
  wf : s.mem.wf
  acc : s.accInRange
  pc : s.pc ≤ Config.memoryLength
  halted : s.halted = false
  fault : s.fault = none
  fsm : s.fsm = .running

namespace State.InCycle

variable {s : State}

theorem inv (h : s.InCycle) : s.inv :=
  ⟨h.wf, h.acc, h.pc, (State.fsmCoherent_running h.fsm).mpr ⟨h.halted, h.fault⟩⟩

/-- Taking a fault keeps the invariant (60_exceptions.md R206). -/
theorem raise (h : s.InCycle) (f : EngineFault) : (s.raise f).inv :=
  ⟨h.wf, h.acc, h.pc, (State.fsmCoherent_faulted rfl).mpr ⟨h.halted, rfl⟩⟩

theorem halt (h : s.InCycle) : s.halt.inv :=
  ⟨h.wf, h.acc, h.pc, (State.fsmCoherent_halted rfl).mpr ⟨rfl, h.fault⟩⟩

theorem advance (h : s.InCycle) (hpc : s.pc < Config.memoryLength) : s.advance.InCycle :=
  { h with pc := hpc }

theorem jump (h : s.InCycle) {a : Nat} (ha : a < Config.memoryLength) : (s.jump a).InCycle :=
  { h with pc := ha.le }

theorem setAcc (h : s.InCycle) {v : Int} (hv : v.natAbs < Config.wordModulus) : (s.setAcc v).InCycle :=
  { h with acc := hv }

theorem truncateAcc (h : s.InCycle) : s.truncateAcc.InCycle :=
  { h with acc := truncate_natAbs_lt s.acc }

theorem emit (h : s.InCycle) (e : PortEvent) : (s.emit e).InCycle :=
  { h with }

theorem write (h : s.InCycle) {a : Nat} (ha : a < Config.memoryLength) (w : Word) :
    InCycle { s with mem := s.mem.write a w } :=
  { h with wf := Memory.wf_write h.wf ha w }

end State.InCycle

/-- A state that can perform a cycle enters it with the invariant (10_state.md R32). -/
theorem State.inCycle_beginCycle {s : State} (hinv : s.inv) (hact : s.active = true) : s.beginCycle.InCycle := by
  obtain ⟨hwf, hacc, hpc, -⟩ := hinv
  obtain ⟨hfault, hhalted⟩ := State.active_eq_true.mp hact
  exact ⟨hwf, hacc, hpc, hhalted, hfault, rfl⟩

/-! ### The READ that waits -/

/-- What a READ cycle for cell `a` knows of the word it runs, `pc` having advanced (41_io.md R136). -/
def State.ReadsInto (s : State) (a : Nat) : Prop :=
  0 < s.pc ∧ opcode (s.mem.read (s.pc - 1)) = 10 ∧ operand (s.mem.read (s.pc - 1)) = a

/-- However the lines at the port leave a READ cycle, the invariant holds: the cell is written within the cycle, or the
FSM waits with the READ one before `pc`. The FSM state the cycle started from is overwritten in both cases. -/
theorem awaitLine_keeps_inv {a : Nat} {lines : List Text} {s t : State} (hs : State.InCycle { s with fsm := .running })
    (ha : a < Config.memoryLength) (hread : s.ReadsInto a) (h : awaitLine a lines s = .next t) : t.inv := by
  rcases awaitLine_cases h with ⟨bad, line, rest, v, -, -, -, -, rfl⟩ | ⟨-, rfl⟩
  · have hw := (hs.write ha (Word.ofInt v)).truncateAcc
    exact State.InCycle.inv ⟨hw.wf, hw.acc, hw.pc, hw.halted, hw.fault, rfl⟩
  · exact ⟨hs.wf, hs.acc, hs.pc, (State.fsmCoherent_waitInput rfl).mpr ⟨hs.halted, hs.fault, ha, hread⟩⟩

/-- A READ that waits in a state of the invariant meets what `awaitLine_keeps_inv` asks (10_state.md R31). -/
theorem State.inv.of_waitInput {s : State} {a : Nat} (hinv : s.inv) (hfsm : s.fsm = .waitInput a) :
    State.InCycle { s with fsm := .running } ∧ a < Config.memoryLength ∧ s.ReadsInto a := by
  obtain ⟨hwf, hacc, hpc, hcoh⟩ := hinv
  obtain ⟨hhalted, hfault, ha, hread⟩ := (State.fsmCoherent_waitInput hfsm).mp hcoh
  exact ⟨⟨hwf, hacc, hpc, hhalted, hfault, rfl⟩, ha, hread⟩

/-! ### The instructions -/

/-- Every row of the opcode table keeps the invariant: each effect is a chain of the operations above. -/
theorem execEffect_keeps_inv {i : Instr} {s t : State} (hs : s.InCycle) (hpc : s.pc < Config.memoryLength)
    (hdec : decode (s.mem.read s.pc) = .ok i) (hopr : ∀ a, i.operand? = some a → a < Config.memoryLength)
    (h : execEffect i s t) : t.inv := by
  have hadv := hs.advance hpc
  cases i with
  | read a =>
    obtain ⟨hopc, hhalt | hoperand⟩ := decode_eq_ok hdec
    · cases hhalt
    · have hadv' := hadv.emit .inputRequest
      have hread : (s.advance.emit .inputRequest).ReadsInto a :=
        ⟨Nat.succ_pos _, hopc.symm, (Option.some.inj hoperand).symm⟩
      have hcycle : State.InCycle { s.advance.emit .inputRequest with fsm := .running } := { hadv' with fsm := rfl }
      exact awaitLine_keeps_inv hcycle (hopr a rfl) hread h
  | write a =>
    cases h
    exact (hadv.emit _).truncateAcc.inv
  | load a =>
    cases h
    exact (hadv.setAcc (Word.toInt_natAbs_lt _)).inv
  | store a =>
    cases h
    exact (hadv.write (hopr a rfl) _).truncateAcc.inv
  | add a | subtract a | multiply a =>
    cases h
    exact (hadv.setAcc (truncate_natAbs_lt _)).inv
  | divide a =>
    rcases h with ⟨-, rfl⟩ | ⟨-, rfl⟩
    · exact hadv.raise _
    · exact (hadv.setAcc (truncate_natAbs_lt _)).inv
  | branch a =>
    cases h
    exact (hs.jump (hopr a rfl)).truncateAcc.inv
  | branchNeg a | branchZero a =>
    cases h
    split
    · exact (hs.jump (hopr a rfl)).truncateAcc.inv
    · exact hadv.truncateAcc.inv
  | halt =>
    cases h
    exact hadv.halt

/-- Settles O42: the six ends of a step (`step_cases`); an instruction's own end is `execEffect_keeps_inv`. -/
theorem stepKeepsInvariant : Obligations.StepKeepsInvariant := by
  intro s t hinv hstep
  rcases step_cases hstep with ⟨-, rfl⟩ | ⟨-, a, hfsm, hline⟩ | ⟨⟨hact, -⟩, -, rfl⟩ | ⟨⟨hact, -⟩, -, -, rfl⟩ |
    ⟨⟨hact, -⟩, -, hpc, i, hdec, hexec⟩ | ⟨⟨hact, -⟩, -, hpc, -, hillegal⟩
  · exact hinv
  · obtain ⟨hs, ha, hread⟩ := hinv.of_waitInput hfsm
    exact awaitLine_keeps_inv hs ha hread hline
  · exact (State.inCycle_beginCycle hinv hact).halt
  · exact (State.inCycle_beginCycle hinv hact).raise _
  · have hs := State.inCycle_beginCycle hinv hact
    rcases exec_cases hexec with ⟨a, -, -, rfl⟩ | ⟨hopr, heffect⟩
    · exact hs.raise _
    · exact execEffect_keeps_inv hs hpc hdec hopr heffect
  · have hs := State.inCycle_beginCycle hinv hact
    rcases illegalWord_cases.mp hillegal with ⟨-, rfl⟩ | ⟨-, rfl⟩
    · exact (hs.advance hpc).raise _
    · exact hs.raise _

/-! ### Every step answers -/

/-- A READ of a cell that exists answers, whatever lines are at the port (41_io.md R131). -/
theorem awaitLine_answers {a : Nat} (ha : a < Config.memoryLength) (lines : List Text) (s : State) :
    ∃ t, awaitLine a lines s = .next t := by
  induction lines generalizing s with
  | nil => exact ⟨_, rfl⟩
  | cons l rest ih =>
    unfold awaitLine
    split
    · exact ⟨_, storeCell_of_lt ha⟩
    · exact ih _

/-- The operand check answers where the operation behind it does (40_cycle.md R105). -/
theorem checkOperand_answers {a : Nat} {s : State} {op : State → Result}
    (h : a < Config.memoryLength → ∃ t, op s.advance = .next t) : ∃ t, checkOperand a s op = .next t := by
  rcases Nat.lt_or_ge a Config.memoryLength with ha | ha
  · rw [checkOperand_of_lt ha]
    exact h ha
  · exact ⟨_, checkOperand_of_ge ha⟩

/-- An operation on the cell of an operand that passed the check answers where it answers on the word. -/
theorem withCell_answers {a : Nat} {s : State} {use : Word → Result} (ha : a < Config.memoryLength)
    (h : ∃ t, use (s.mem.read a) = .next t) : ∃ t, withCell a s use = .next t := by
  rwa [withCell_of_lt ha]

theorem arithmetic_answers (op : Int → Int → Int) (a : Nat) (s : State) : ∃ t, arithmetic op a s = .next t := by
  unfold arithmetic
  exact checkOperand_answers fun ha => withCell_answers ha ⟨_, rfl⟩

/-- Every instruction answers in every state: the operand check comes before every cell (40_cycle.md R105). -/
theorem exec_answers (i : Instr) (s : State) : ∃ t, exec i s = .next t := by
  unfold exec
  cases i with
  | read a => exact checkOperand_answers fun ha => awaitLine_answers ha s.input _
  | write a | load a => exact checkOperand_answers fun ha => withCell_answers ha ⟨_, rfl⟩
  | add a | subtract a | multiply a => exact arithmetic_answers _ a s
  | store a => exact checkOperand_answers fun ha => ⟨_, storeCell_of_lt ha⟩
  | divide a =>
    refine checkOperand_answers fun ha => withCell_answers ha ?_
    split <;> exact ⟨_, rfl⟩
  | branch a | branchNeg a | branchZero a =>
    exact checkOperand_answers fun ha => ⟨_, branchUnit_of_lt _ _ ha⟩
  | halt => exact ⟨_, rfl⟩

theorem executeWord_answers (w : Word) (s : State) : ∃ t, executeWord w s = .next t := by
  unfold executeWord
  split
  · exact exec_answers _ s
  · exact checkOperand_answers fun _ => ⟨_, rfl⟩

/-- A cycle answers in every state (40_cycle.md R110). -/
theorem cycle_answers (s : State) : ∃ t, cycle s = .next t := by
  unfold cycle
  split
  · exact ⟨_, rfl⟩
  · split
    · exact ⟨_, rfl⟩
    · exact executeWord_answers _ _

/-- Settles O43: only a READ that waits needs the invariant, for its cell. -/
theorem stepAlwaysAnswers : Obligations.StepAlwaysAnswers := by
  intro s hinv
  unfold step stepRequest
  split
  · split
    · rename_i a hfsm
      obtain ⟨-, ha, -⟩ := hinv.of_waitInput hfsm
      exact awaitLine_answers ha s.input s
    · exact cycle_answers s
  · exact ⟨_, rfl⟩

/-! ### The events of the host -/

theorem hostEvent_load_of_ok {s t : State} {lines : List Text} (h : s.load lines = .ok t) :
    hostEvent (.load lines) s = .next t := by
  simp [hostEvent, h]

theorem hostEvent_load_of_error {s : State} {lines : List Text} {e : LoadError} (h : s.load lines = .error e) :
    hostEvent (.load lines) s = .next s := by
  simp [hostEvent, h]

/-- `load_from_text` is `load` on the lines of the text that are not blank (70_reset_and_hazards.md R247). -/
theorem hostEvent_loadFromText (raw : Text) (s : State) :
    hostEvent (.loadFromText raw) s = hostEvent (.load ((splitLines [] raw).filter fun t => !isBlank t)) s := rfl

/-- A line that comes while a READ waits is taken at once (10_state.md R32). -/
theorem hostEvent_line_of_waitInput {s : State} {a : Nat} (l : Text) (h : s.fsm = .waitInput a) :
    hostEvent (.line l) s = awaitLine a (s.input ++ [l]) s := by
  simp [hostEvent, h]

/-- Any other line stays at the port (log entry 2). -/
theorem hostEvent_line_of_not_waits {s : State} (l : Text) (h : s.waits = false) :
    hostEvent (.line l) s = .next { s with input := s.input ++ [l] } := by
  have hfsm := State.waits_eq_false.mp h
  cases hs : s.fsm <;> simp_all [hostEvent]

/-- The core's reset meets the invariant from any state (70_reset_and_hazards.md R231). -/
theorem State.resetCore_inv (s : State) : s.resetCore.inv :=
  ⟨Memory.wf_reset, (by decide : State.reset.accInRange), Nat.zero_le _, rfl⟩

/-- A load that succeeds meets the invariant from any state: its image fits (70_reset_and_hazards.md R239, R245). -/
theorem State.load_keeps_inv {s t : State} {lines : List Text} (h : s.load lines = .ok t) : t.inv := by
  obtain ⟨hlen, ws, hws, -, rfl⟩ := State.load_eq_ok h
  obtain ⟨hwslen, -⟩ := validateLines_eq_ok hws
  obtain ⟨hwf, hacc, hpc, hcoh⟩ := s.resetCore_inv
  exact ⟨writeImage_wf hwf (by omega), hacc, hpc, hcoh⟩

/-- A load, whether it succeeds or fails, is answered and keeps the invariant (70_reset_and_hazards.md R245). -/
theorem hostEvent_load_keeps_inv {s : State} (hinv : s.inv) (lines : List Text) :
    ∃ t, hostEvent (.load lines) s = .next t ∧ t.inv := by
  cases hload : s.load lines with
  | ok t => exact ⟨t, hostEvent_load_of_ok hload, State.load_keeps_inv hload⟩
  | error e => exact ⟨s, hostEvent_load_of_error hload, hinv⟩

/-- Settles O44: event by event; a step is O43 with O42, a line for a waiting READ the same two facts of `awaitLine`,
and no clause of the invariant looks at the level of `stop_req` or at the lines at the port. -/
theorem hostEventsKeepInvariant : Obligations.HostEventsKeepInvariant := by
  intro e s hinv
  cases e with
  | reset => exact ⟨_, rfl, s.resetCore_inv⟩
  | load lines => exact hostEvent_load_keeps_inv hinv lines
  | loadFromText raw =>
    rw [hostEvent_loadFromText]
    exact hostEvent_load_keeps_inv hinv _
  | step =>
    obtain ⟨t, hstep⟩ := stepAlwaysAnswers s hinv
    exact ⟨t, hstep, stepKeepsInvariant s t hinv hstep⟩
  | stop level => exact ⟨_, rfl, hinv⟩
  | line l =>
    cases hw : s.waits with
    | true =>
      obtain ⟨a, hfsm⟩ := State.waits_eq_true.mp hw
      obtain ⟨hs, ha, hread⟩ := hinv.of_waitInput hfsm
      obtain ⟨t, ht⟩ := awaitLine_answers ha (s.input ++ [l]) s
      exact ⟨t, (hostEvent_line_of_waitInput l hfsm).trans ht, awaitLine_keeps_inv hs ha hread ht⟩
    | false => exact ⟨_, hostEvent_line_of_not_waits l hw, hinv⟩

/-- Settles O45: the reset state is what the core's reset leaves of itself. -/
theorem resetMeetsInvariant : Obligations.ResetMeetsInvariant :=
  State.reset.resetCore_inv

/-- Settles O46: the fields of `resetCore`, and no cell listed in its memory. -/
theorem resetLeavesInitialState : Obligations.ResetLeavesInitialState := fun s =>
  ⟨s.resetCore, rfl, fun _ => rfl, s.resetCore_acc, s.resetCore_pc, s.resetCore_halted, s.resetCore_fault,
    s.resetCore_fsm, s.resetCore_stopReq, s.resetCore_input, s.resetCore_events⟩

end Sys2Proof.Machine
end

section
/-! PROOFS. Encoding, words as text and the physical layout (30_encoding.md, 20_memory.md section 1): O1, O3 to O8. -/

namespace Sys2Proof

open Machine

theorem Instr.opcode_lt (i : Instr) : i.opcode < 1000 := by
  cases i <;> simp [Instr.opcode]

theorem Instr.wellFormed_iff {i : Instr} :
    i.wellFormed = true ↔ ∀ a, i.operand? = some a → a < Config.operandValues := by
  cases h : i.operand? <;> simp [Instr.wellFormed, h]

/-- Settles O1: the encoder puts the instruction's fields into the word, and the fields alone decide the decoder's
answer (`decode_of_fields`). -/
theorem decodeEncodeAgree : Obligations.DecodeEncodeAgree := by
  intro i hwf
  obtain ⟨hopc, hopr, -⟩ := Laws.EncodedFields.fields_of_opcode_lt i.opcode_lt hwf
  refine decode_of_fields hopc fun a ha => ?_
  rw [hopr, ha, Option.getD_some]

/-- The decoder's answer carries the operand field of the word, where it has an operand at all. -/
theorem operand_of_decode {w : Word} {i : Instr} (h : decode w = .ok i) {a : Nat} (ha : i.operand? = some a) :
    a = operand w := by
  obtain ⟨-, rfl | hoperand⟩ := decode_eq_ok h
  · cases ha
  · exact Option.some.inj (ha.symm.trans hoperand)

/-- What the decoder answers is well formed: an operand field has three digits (30_encoding.md R82). -/
theorem wellFormed_of_decode {w : Word} {i : Instr} (h : decode w = .ok i) : i.wellFormed = true :=
  Instr.wellFormed_iff.mpr fun _ ha => operand_of_decode h ha ▸ operand_lt w

/-- Settles O3: the fields are those of `decode_eq_ok`, and a word of either sign has the same two fields. -/
theorem decodedInstructionCarriesFields : Obligations.DecodedInstructionCarriesFields := by
  intro w i hdec
  obtain ⟨hopc, hopr⟩ := decode_eq_ok hdec
  refine ⟨wellFormed_of_decode hdec, hopc, fun a ha => operand_of_decode hdec ha, fun hnone => ?_, fun sg => ?_⟩
  · exact hopr.resolve_right (by simp [hnone])
  · exact decode_of_fields hopc.symm fun a ha => (operand_of_decode hdec ha).symm

/-- Settles O4: a table of closed words, each decoded by evaluation. -/
theorem knownWordsDecode : Obligations.KnownWordsDecode := by
  unfold Obligations.KnownWordsDecode
  decide

/-! ### The text of a word (20_memory.md R50) -/

/-- Two words are equal when sign and magnitude are. -/
theorem Word.ext_mag {v w : Word} (hsign : v.sign = w.sign) (hmag : v.mag.val = w.mag.val) : v = w := by
  cases v
  cases w
  simp_all [Fin.ext_iff]

/-- A word is its two fields under its sign (30_encoding.md R80 to R82). -/
theorem instrWord_fields (w : Word) : instrWord w.sign (opcode w) (operand w) = w := by
  refine Word.ext_mag rfl ?_
  rw [instrWord_mag _ (opcode_lt w) (operand_lt w), opcode_eq, operand_eq]
  omega

/-- The digits at a width do not see what stands above that width. -/
theorem digitsText_mod (k n : Nat) : digitsText k (n % 10 ^ k) = digitsText k n := by
  conv_rhs => rw [← Nat.div_add_mod' n (10 ^ k), digitsText_add_mul (le_refl k)]

/-- The digits at a width in two parts: the high ones are the low digits of the quotient. -/
theorem digitsText_add (j k n : Nat) : digitsText (j + k) n = digitsText j (n / 10 ^ k) ++ digitsText k n := by
  induction j with
  | zero => simp [digitsText]
  | succ j ih =>
    have hdiv : n / 10 ^ k / 10 ^ j = n / 10 ^ (j + k) := by rw [Nat.div_div_eq_div_mul, ← pow_add, Nat.add_comm k j]
    rw [show j + 1 + k = (j + k) + 1 by omega, digitsText, digitsText, ih, hdiv, List.cons_append]

/-- Settles O5: the six digits cut after the third are the two fields' digits. -/
theorem wordTextIsSignOpcodeOperand : Obligations.WordTextIsSignOpcodeOperand := by
  intro w
  refine ⟨?_, instrWord_fields w⟩
  have hopr : digitsText 3 (operand w) = digitsText 3 w.mag.val := by rw [operand_eq]; exact digitsText_mod 3 _
  rw [hopr, opcode_eq]
  exact congrArg _ (digitsText_add 3 3 w.mag.val)

/-- The validator reads the text of a word as that word (70_reset_and_hazards.md R243). -/
theorem Word.ofText_text (w : Word) : Word.ofText? w.text = some w := by
  have hmag : 0 * 10 ^ 6 + w.mag.val % 10 ^ 6 = w.mag.val := by
    have := w.mag_lt
    omega
  simp only [Word.text, Word.ofText?, digitsText_length, if_true, signOfChar_signChar, parseDigits_digitsText, hmag]
  exact congrArg some (Word.ext_mag rfl (Nat.mod_eq_of_lt w.mag.isLt))

/-- Settles O6: one direction is `Word.ofText_text`; in the other the six characters the validator read are the digits
of the number it read (`parseDigits_eq_some`). -/
theorem wordTextRoundTrip : Obligations.WordTextRoundTrip := by
  intro t w
  refine ⟨fun h => ?_, fun h => h ▸ w.ofText_text⟩
  unfold Word.ofText? at h
  split at h
  next => cases h
  next c cs =>
    split at h
    next hlen =>
      split at h
      next sg n hsg hn =>
        cases h
        obtain ⟨m, hm, hnm, hcs⟩ := parseDigits_eq_some hn
        rw [hlen] at hm hnm hcs
        have hval : (Fin.ofNat Config.wordModulus n).val = m := by
          rw [hnm, Nat.zero_mul, Nat.zero_add]
          exact Nat.mod_eq_of_lt hm
        rw [signOfChar_eq_some hsg, Word.text, hval, ← hcs]
      next => cases h
    next => cases h

/-- The ten digit characters are those the codec writes. -/
theorem mem_digits_iff {c : Char} :
    c ∈ ['0', '1', '2', '3', '4', '5', '6', '7', '8', '9'] ↔ ∃ d, c = digitChar d := by
  constructor
  · intro h
    fin_cases h
    exacts [⟨0, rfl⟩, ⟨1, rfl⟩, ⟨2, rfl⟩, ⟨3, rfl⟩, ⟨4, rfl⟩, ⟨5, rfl⟩, ⟨6, rfl⟩, ⟨7, rfl⟩, ⟨8, rfl⟩, ⟨9, rfl⟩]
  · rintro ⟨d, rfl⟩
    have h : d % 10 < 10 := Nat.mod_lt _ (by decide)
    unfold digitChar
    generalize d % 10 = k at h
    interval_cases k <;> decide

theorem exists_digitChar_of_mem_digitsText {k n : Nat} {c : Char} (h : c ∈ digitsText k n) : ∃ d, c = digitChar d := by
  induction k with
  | zero => cases h
  | succ k ih =>
    rcases List.mem_cons.mp h with rfl | h
    · exact ⟨_, rfl⟩
    · exact ih h

/-- A run of digit characters reads as a number (20_memory.md R53). -/
theorem parseDigits_of_digits {ds : Text} (h : ∀ d ∈ ds, ∃ k, d = digitChar k) (r : Nat) :
    ∃ n, parseDigits r ds = some n := by
  induction ds generalizing r with
  | nil => exact ⟨r, rfl⟩
  | cons d ds ih =>
    obtain ⟨k, rfl⟩ := h d List.mem_cons_self
    simp only [parseDigits, digitValue_digitChar]
    exact ih (fun c hc => h c (List.mem_cons_of_mem _ hc)) _

/-- Settles O7: a line the validator takes is a word's text (O6), whose characters are known; and a line of that shape
has a sign that is read and six digits that are read. -/
theorem loaderAcceptsExactlySignAndSixDigits : Obligations.LoaderAcceptsExactlySignAndSixDigits := by
  intro t
  constructor
  · rintro ⟨w, hw⟩
    obtain rfl := (wordTextRoundTrip t w).mp hw
    refine ⟨_, _, rfl, ?_, digitsText_length _ _, fun d hd => ?_⟩
    · cases w.sign <;> simp [signChar]
    · exact mem_digits_iff.mpr (exists_digitChar_of_mem_digitsText hd)
  · rintro ⟨c, ds, rfl, hc, hlen, hds⟩
    obtain ⟨n, hn⟩ := parseDigits_of_digits (fun d hd => mem_digits_iff.mp (hds d hd)) 0
    obtain ⟨sg, hsg⟩ : ∃ sg, signOfChar? c = some sg := by
      rcases hc with rfl | rfl
      exacts [⟨.plus, rfl⟩, ⟨.minus, rfl⟩]
    exact ⟨⟨sg, Fin.ofNat _ n⟩, by simp only [Word.ofText?, Config.wordLength, hlen, if_true, hsg, hn]⟩

/-! ### The physical layout (30_encoding.md R88) -/

/-- A number of three decimal digits, one digit to a nibble: how a field of a word stands in its pattern. -/
def bcdField (n : Nat) : Nat :=
  n % 10 + n / 10 % 10 * 16 + n / 100 % 10 * 256

theorem bcdField_lt (n : Nat) : bcdField n < 2 ^ 12 := by
  unfold bcdField
  omega

/-- Nibble `j` of a field is its decimal digit `j`. -/
theorem bcdField_nibble (n : Nat) {j : Nat} (hj : j < 3) : bcdField n / 16 ^ j % 16 = n / 10 ^ j % 10 := by
  have nibbles (x y z : Nat) (hx : x < 10) (hy : y < 10) (hz : z < 10) :
      (x + y * 16 + z * 256) % 16 = x ∧ (x + y * 16 + z * 256) / 16 % 16 = y ∧
        (x + y * 16 + z * 256) / 256 % 16 = z := by omega
  have hlt (m : Nat) : m % 10 < 10 := Nat.mod_lt _ (by decide)
  obtain ⟨h0, h1, h2⟩ := nibbles (n % 10) (n / 10 % 10) (n / 100 % 10) (hlt _) (hlt _) (hlt _)
  unfold bcdField
  interval_cases j
  · simpa using h0
  · simpa using h1
  · simpa using h2

/-- Digit `d[k]` of a magnitude as arithmetic (00_scope.md R9). -/
theorem digits_self (m k : Nat) : digits m k k = m / 10 ^ k % 10 := by
  simp [digits]

/-- The number a word's pattern is: the sign bit, the opcode field, the operand field. -/
theorem Word.toBcd_toNat (w : Word) :
    w.toBcd.toNat =
      (if w.sign = .minus then 1 else 0) * 2 ^ 24 + bcdField (opcode w) * 2 ^ 12 + bcdField (operand w) := by
  have hopc := bcdField_lt (opcode w)
  have hopr := bcdField_lt (operand w)
  have hfields : digits w.mag.val 0 0 + digits w.mag.val 1 1 * 16 + digits w.mag.val 2 2 * 16 ^ 2 +
      digits w.mag.val 3 3 * 16 ^ 3 + digits w.mag.val 4 4 * 16 ^ 4 + digits w.mag.val 5 5 * 16 ^ 5 =
        bcdField (opcode w) * 2 ^ 12 + bcdField (operand w) := by
    simp only [digits_self, bcdField, opcode_eq, operand_eq]
    omega
  unfold Word.toBcd
  rw [BitVec.toNat_ofNat, hfields]
  cases w.sign <;> simp only [reduceCtorEq, if_true, if_false] <;> omega

/-- Nibble `i` of a pattern as arithmetic. -/
theorem bcdDigit_eq (b : BitVec 25) (i : Nat) : bcdDigit b i = b.toNat / 16 ^ i % 16 := by
  rw [bcdDigit, BitVec.extractLsb'_toNat, Nat.shiftRight_eq_div_pow, pow_mul]
  rfl

/-- Nibble `i` of a word's pattern is its digit `d[i]` (30_encoding.md R88). -/
theorem bcdDigit_toBcd (w : Word) {i : Nat} (hi : i < Config.wordLength) :
    bcdDigit w.toBcd i = digits w.mag.val i i := by
  have hopr := bcdField_lt (operand w)
  rw [bcdDigit_eq, Word.toBcd_toNat, digits_self]
  generalize (if w.sign = .minus then 1 else 0) = sgn
  rcases Nat.lt_or_ge i 3 with hlow | hhigh
  · calc (sgn * 2 ^ 24 + bcdField (opcode w) * 2 ^ 12 + bcdField (operand w)) / 16 ^ i % 16
      _ = bcdField (operand w) / 16 ^ i % 16 := by interval_cases i <;> omega
      _ = operand w / 10 ^ i % 10 := bcdField_nibble _ hlow
      _ = w.mag.val / 10 ^ i % 10 := by rw [operand_eq]; interval_cases i <;> omega
  · obtain ⟨j, rfl⟩ := Nat.exists_eq_add_of_le hhigh
    have hj : j < 3 := Nat.lt_of_add_lt_add_left hi
    have hopc := bcdField_lt (opcode w)
    calc (sgn * 2 ^ 24 + bcdField (opcode w) * 2 ^ 12 + bcdField (operand w)) / 16 ^ (3 + j) % 16
      _ = bcdField (opcode w) / 16 ^ j % 16 := by interval_cases j <;> omega
      _ = opcode w / 10 ^ j % 10 := bcdField_nibble _ hj
      _ = w.mag.val / 10 ^ (3 + j) % 10 := by rw [opcode_eq, Nat.div_div_eq_div_mul, pow_add]; rfl

/-- Bit 24 of a word's pattern is its sign (30_encoding.md R88). -/
theorem getLsbD_toBcd (w : Word) : w.toBcd.getLsbD 24 = decide (w.sign = .minus) := by
  have hopc := bcdField_lt (opcode w)
  have hopr := bcdField_lt (operand w)
  rw [BitVec.getLsbD, Nat.testBit_eq_decide_div_mod_eq, Word.toBcd_toNat]
  refine decide_eq_decide.mpr ?_
  split
  next hs => exact iff_of_true (by omega) hs
  next hs => exact iff_of_false (by omega) hs

/-- A pattern read back gives the word: every nibble is decimal, and the digits rebuild the magnitude. -/
theorem Word.ofBcd_toBcd (w : Word) : Word.ofBcd w.toBcd = .ok w := by
  have hdec : (List.range Config.wordLength).all (fun i => decide (bcdDigit w.toBcd i < 10)) = true := by
    refine List.all_eq_true.mpr fun i hi => decide_eq_true ?_
    rw [bcdDigit_toBcd w (List.mem_range.mp hi)]
    rw [digits_self]
    omega
  have hlt := w.mag_lt
  rw [Word.ofBcd, if_pos hdec, getLsbD_toBcd]
  refine congrArg _ (Word.ext_mag ?_ ?_)
  · cases w.sign <;> rfl
  · simp (disch := decide) only [bcdDigit_toBcd, digits_self, Fin.ofNat, Config.wordModulus]
    omega

/-- A mask of `m` ones over `k` zeros keeps the `m` bits above the `k` low ones and clears the rest. -/
theorem and_fieldMask {x k lo : Nat} (m : Nat) (hlo : lo < 2 ^ k) :
    (x * 2 ^ k + lo) &&& (2 ^ m - 1) * 2 ^ k = x % 2 ^ m * 2 ^ k := by
  have hlow : lo &&& (2 ^ m - 1) <<< k = 0 := by
    refine Nat.eq_of_testBit_eq fun j => ?_
    rw [Nat.testBit_and, Nat.testBit_shiftLeft, Nat.zero_testBit]
    rcases Nat.lt_or_ge j k with hj | hj
    · simp [Nat.not_le.mpr hj]
    · rw [Nat.testBit_lt_two_pow (hlo.trans_le (Nat.pow_le_pow_right (by decide) hj)), Bool.false_and]
  calc (x * 2 ^ k + lo) &&& (2 ^ m - 1) * 2 ^ k
    _ = (x <<< k ||| lo) &&& (2 ^ m - 1) <<< k := by
      rw [← Nat.shiftLeft_add_eq_or_of_lt hlo, Nat.shiftLeft_eq, Nat.shiftLeft_eq]
    _ = (x &&& (2 ^ m - 1)) <<< k := by
      rw [Nat.and_or_distrib_right, hlow, Nat.or_zero, Nat.shiftLeft_and_distrib]
    _ = x % 2 ^ m * 2 ^ k := by rw [Nat.and_two_pow_sub_one_eq_mod, Nat.shiftLeft_eq]

/-- The mask selects the opcode field, whatever the sign and the operand (30_encoding.md R88). -/
theorem Word.toBcd_and_opcodeMask (w : Word) :
    w.toBcd &&& 0x0FFF000#25 = BitVec.ofNat 25 (bcdField (opcode w) * 2 ^ 12) := by
  have hopc := bcdField_lt (opcode w)
  obtain ⟨sgn, hsgn⟩ : ∃ sgn, w.toBcd.toNat = sgn * 2 ^ 24 + bcdField (opcode w) * 2 ^ 12 + bcdField (operand w) :=
    ⟨_, w.toBcd_toNat⟩
  apply BitVec.eq_of_toNat_eq
  calc (w.toBcd &&& 0x0FFF000#25).toNat
    _ = w.toBcd.toNat &&& 0xFFF000 := BitVec.toNat_and _ _
    _ = (sgn * 2 ^ 12 + bcdField (opcode w)) * 2 ^ 12 + bcdField (operand w) &&& (2 ^ 12 - 1) * 2 ^ 12 := by
      rw [hsgn, show 0xFFF000 = (2 ^ 12 - 1) * 2 ^ 12 by decide, Nat.add_mul, Nat.mul_assoc, ← pow_add]
    _ = (sgn * 2 ^ 12 + bcdField (opcode w)) % 2 ^ 12 * 2 ^ 12 := and_fieldMask 12 (bcdField_lt _)
    _ = bcdField (opcode w) * 2 ^ 12 := by rw [Nat.mul_add_mod_self_right, Nat.mod_eq_of_lt hopc]
    _ = (BitVec.ofNat 25 (bcdField (opcode w) * 2 ^ 12)).toNat := by
      rw [BitVec.toNat_ofNat, Nat.mod_eq_of_lt (by omega)]

/-- Settles O8: the round trip is `Word.ofBcd_toBcd`; the mask leaves the field of the opcode, which is the row's. -/
theorem bcdLayoutRoundTrip : Obligations.BcdLayoutRoundTrip := by
  refine ⟨Word.ofBcd_toBcd, fun i hwf => ?_⟩
  obtain ⟨hopc, -, -⟩ := Laws.EncodedFields.fields_of_opcode_lt i.opcode_lt hwf
  rw [Word.toBcd_and_opcodeMask, hopc]
  cases i <;> simp [Instr.opcode, bcdField]

end Sys2Proof
end

section
/-! PROOFS. The word codec and the identities of the overflow unit and of the quotient (20_memory.md section 1,
43_arithmetic.md section 3): O9, O10, O11, O13, O14. -/

namespace Sys2Proof

/-- Encoding undoes decoding but for the sign that 0 has lost (20_memory.md R51, R52). -/
theorem Word.ofInt_toInt {w : Word} (hw : w ≠ ⟨.minus, 0⟩) : Word.ofInt w.toInt = w := by
  have hmag : w.toInt.natAbs = w.mag.val := by
    unfold Word.toInt signed
    split <;> omega
  refine Word.ext_mag ?_ ((Word.mag_ofInt w.toInt_natAbs_lt).trans hmag)
  show signOf w.toInt = w.sign
  cases hs : w.sign with
  | plus => simp [Word.toInt, signed, signOf, hs]
  | minus =>
    have hpos : w.mag.val ≠ 0 := fun hzero => hw (Word.ext_mag hs hzero)
    simp only [Word.toInt, signed, signOf, hs]
    rw [if_neg (by omega)]

/-- Settles O9: the two round trips, and the excepted word by evaluation. -/
theorem codecRoundTrip : Obligations.CodecRoundTrip :=
  ⟨fun _ => Word.toInt_ofInt, fun _ => Word.ofInt_toInt, by decide⟩

/-- The text of an encoded value in the codec's domain is the text the encoder writes at the word's width. -/
theorem Word.text_ofInt {v : Int} (hv : v.natAbs < Config.wordModulus) :
    (Word.ofInt v).text = encodeText v Config.wordLength := by
  rw [Word.text, Word.mag_ofInt hv]
  rfl

/-- Settles O10: the digits the encoder writes have the width and read back as the magnitude
(`parseDigits_digitsText`). -/
theorem encodeWritesSignAndPaddedDigits : Obligations.EncodeWritesSignAndPaddedDigits := by
  refine ⟨fun v width hv => ⟨digitsText width v.natAbs, ?_, digitsText_length _ _, ?_⟩, fun v => Word.text_ofInt, rfl⟩
  · rw [encodeText, signOf]
    split <;> rfl
  · rw [parseDigits_digitsText, Nat.zero_mul, Nat.zero_add, Nat.mod_eq_of_lt hv]

/-- A sign and a run of digits, one or more, spell the signed number (20_memory.md R53). -/
theorem parseInteger_encoded (sg : Sign) (k n : Nat) :
    parseInteger (signChar sg :: digitsText (k + 1) n) = some (signed sg (n % 10 ^ (k + 1))) := by
  have hparse := parseDigits_digitsText (k + 1) n 0
  rw [Nat.zero_mul, Nat.zero_add, digitsText] at hparse
  simp only [parseInteger, splitSign, signOfChar_signChar, digitsText, hparse]

/-- Settles O11: the text of a word is a sign and six digits, and what they spell is in range. -/
theorem printedWordReadsBack : Obligations.PrintedWordReadsBack := by
  intro w
  have hparse : parseInteger w.text = some w.toInt := by
    have hmod : w.mag.val % 10 ^ 6 = w.mag.val := Nat.mod_eq_of_lt w.mag_lt
    exact (parseInteger_encoded w.sign 5 w.mag.val).trans (by rw [hmod]; rfl)
  have haccepted : acceptedValue w.text = some w.toInt := by
    rw [acceptedValue, hparse]
    exact if_pos w.toInt_natAbs_lt
  exact ⟨by rw [isValidWord, haccepted]; rfl, haccepted⟩

namespace Machine

/-- The overflow unit is the truncating remainder of the integers (40_cycle.md R108): the sign of the value on the
remainder of the magnitudes. -/
theorem truncate_eq_tmod (v : Int) : truncate v = v.tmod 1000000 := by
  rw [truncate_eq_sign_mul_mod]
  rcases lt_trichotomy v 0 with hneg | rfl | hpos
  · have htmod : v.tmod 1000000 = -((-v) % 1000000) := by
      rw [← Int.tmod_eq_emod_of_nonneg (by omega), Int.neg_tmod, neg_neg]
    rw [htmod, Int.sign_eq_neg_one_of_neg hneg]
    omega
  · rfl
  · rw [Int.tmod_eq_emod_of_nonneg hpos.le, Int.sign_eq_one_of_pos hpos]
    omega

/-- Truncating remainders of sums of values not negative are the remainders of Euclid. -/
theorem tmod_add_tmod_of_nonneg {x y m : Int} (hm : 0 < m) (hx : 0 ≤ x) (hy : 0 ≤ y) :
    (x.tmod m + y).tmod m = (x + y).tmod m := by
  have hmod := Int.emod_nonneg x hm.ne'
  rw [Int.tmod_eq_emod_of_nonneg hx, Int.tmod_eq_emod_of_nonneg (by omega), Int.tmod_eq_emod_of_nonneg (by omega),
    Int.emod_add_emod]

/-- Settles O13: truncation is a truncating remainder. -/
theorem truncationComposes : Obligations.TruncationComposes := by
  refine ⟨fun x y => ?_, fun x y hsign => ?_⟩
  · simp only [truncate_eq_tmod]
    rw [Int.mul_tmod, Int.tmod_tmod, ← Int.mul_tmod]
  · simp only [truncate_eq_tmod]
    rcases hsign with ⟨hx, hy⟩ | ⟨hx, hy⟩
    · exact tmod_add_tmod_of_nonneg (by decide) hx hy
    · have hflip := tmod_add_tmod_of_nonneg (m := 1000000) (by decide) (Int.neg_nonneg.mpr hx) (Int.neg_nonneg.mpr hy)
      rw [Int.neg_tmod, ← Int.neg_add, ← Int.neg_add, Int.neg_tmod, Int.neg_tmod] at hflip
      exact Int.neg_inj.mp hflip

/-- Settles O14: the quotient is the truncating one (`quotient_eq_tdiv`), and its remainder is the truncating
remainder. -/
theorem quotientRoundsTowardZero : Obligations.QuotientRoundsTowardZero := by
  intro n m hm
  rw [quotient_eq_tdiv n hm]
  refine ⟨rfl, Int.natAbs_tdiv_le_natAbs n m, n.tmod m, ?_, ?_, ?_⟩
  · rw [Int.mul_comm]
    exact (Int.mul_tdiv_add_tmod n m).symm
  · rw [Int.natAbs_tmod]
    exact Nat.mod_lt _ (Int.natAbs_pos.mpr hm)
  · by_cases hdvd : m ∣ n
    · exact .inl (Int.tmod_eq_zero_of_dvd hdvd)
    · exact .inr (by rw [Int.sign_tmod, if_neg hdvd])

end Machine

end Sys2Proof
end

section
/-! PROOFS. READ and the lines at the port (41_io.md sections 1 and 2, 10_state.md R32): O22, O23, O24, O25. -/

namespace Sys2Proof

theorem isValidWord_eq_false {t : Text} : isValidWord t = false ↔ acceptedValue t = none := by
  cases h : acceptedValue t <;> simp [isValidWord, h]

namespace Machine

/-- A request and the requests for the lines that are dropped (41_io.md R131). -/
theorem State.emit_then_replicate (s : State) (n : Nat) :
    (s.emit .inputRequest).events ++ List.replicate n .inputRequest =
      s.events ++ List.replicate (n + 1) .inputRequest := by
  simp [List.replicate_succ]

/-- The lines before the first valid one are dropped, each with a new request (41_io.md R132). -/
theorem awaitLine_append {a : Nat} {bad : List Text} (lines : List Text) (s : State)
    (hbad : ∀ l ∈ bad, isValidWord l = false) :
    awaitLine a (bad ++ lines) s =
      awaitLine a lines { s with events := s.events ++ List.replicate bad.length .inputRequest } := by
  induction bad generalizing s with
  | nil => simp
  | cons l bad ih =>
    have hl : acceptedValue l = none := isValidWord_eq_false.mp (hbad l List.mem_cons_self)
    calc awaitLine a (l :: bad ++ lines) s
      _ = awaitLine a (bad ++ lines) (s.emit .inputRequest) := by simp only [List.cons_append, awaitLine, hl]
      _ = _ := ih _ fun l' hl' => hbad l' (List.mem_cons_of_mem _ hl')
      _ = _ := by rw [State.emit_then_replicate]; rfl

/-- The first valid line is stored, re-encoded, and completes the READ (41_io.md R134). -/
theorem awaitLine_of_valid {a : Nat} {line : Text} {v : Int} {s : State} (rest : List Text)
    (ha : a < Config.memoryLength) (hacc : s.accInRange) (hline : acceptedValue line = some v) :
    awaitLine a (line :: rest) s =
      .next { s with mem := s.mem.write a (Word.ofInt v), input := rest, fsm := .running } := by
  have hkeep : State.accInRange { s with mem := s.mem.write a (Word.ofInt v), input := rest, fsm := .running } := hacc
  simp only [awaitLine, hline, storeCell_of_lt ha, complete, State.truncateAcc_of_inRange hkeep]

/-- With no valid line every line is asked for again and the FSM waits (41_io.md R131, 10_state.md R32). -/
theorem awaitLine_of_invalid {a : Nat} {lines : List Text} (s : State) (hlines : ∀ l ∈ lines, isValidWord l = false) :
    awaitLine a lines s = .next { s with
      input := []
      fsm := .waitInput a
      events := s.events ++ List.replicate lines.length .inputRequest } := by
  have h := awaitLine_append (a := a) [] s hlines
  rwa [List.append_nil] at h

/-- What READ leaves in its cell: the accepted value, re-encoded, and no other cell changed (41_io.md R134). -/
theorem read_after_input {line : Text} {v : Int} (hline : acceptedValue line = some v) (m : Memory) (a : Nat) :
    (m.write a (Word.ofInt v)).read a = Word.ofInt v ∧ ((m.write a (Word.ofInt v)).read a).toInt = v ∧
      ∀ b, b ≠ a → (m.write a (Word.ofInt v)).read b = m.read b := by
  rw [Memory.read_write_same]
  exact ⟨rfl, Word.toInt_ofInt (acceptedValue_natAbs_lt hline), fun b hb => Memory.read_write_other m _ hb⟩

/-- Settles O22: the dropped lines are `awaitLine_append`, the stored one `awaitLine_of_valid`. -/
theorem readStoresFirstValidLine : Obligations.ReadStoresFirstValidLine := by
  intro s a bad rest line v ha hacc hinput hbad hline
  refine ⟨fun sg => ?_, ?_⟩
  · exact decode_instrWord (i := .read a) sg (lt_operandValues_of_lt_memoryLength ha) (.inl rfl)
  have hexec : exec (.read a) s = .next { s with
      pc := s.pc + 1
      mem := s.mem.write a (Word.ofInt v)
      fsm := .running
      input := rest
      events := s.events ++ List.replicate (bad.length + 1) .inputRequest } := by
    calc exec (.read a) s
      _ = awaitLine a (bad ++ line :: rest) (s.advance.emit .inputRequest) := by rw [← hinput]; exact execRead_of_lt ha
      _ = _ := awaitLine_append _ _ hbad
      _ = _ := awaitLine_of_valid rest ha hacc hline
      _ = _ := by rw [State.emit_then_replicate]; rfl
  obtain ⟨hread, hvalue, hother⟩ := read_after_input hline s.mem a
  exact ⟨_, hexec, hread, hvalue, hother, rfl⟩

/-- Settles O23: no line is valid, so that the READ waits (`awaitLine_of_invalid`). -/
theorem readWaitsForValidLine : Obligations.ReadWaitsForValidLine := by
  intro s a ha hinput
  calc exec (.read a) s
    _ = awaitLine a s.input (s.advance.emit .inputRequest) := execRead_of_lt ha
    _ = _ := awaitLine_of_invalid _ hinput
    _ = _ := by rw [State.emit_then_replicate]; rfl

/-- Settles O24: the line is taken at once by the READ that waits; its cell exists because the state is coherent. -/
theorem lineEndsOrProlongsWait : Obligations.LineEndsOrProlongsWait := by
  intro s a line hinv hfsm hinput
  have hline : hostEvent (.line line) s = awaitLine a [line] s := by
    rw [hostEvent_line_of_waitInput line hfsm, hinput, List.nil_append]
  rw [hline]
  refine ⟨fun v hv => ?_, fun hinvalid => ?_⟩
  · obtain ⟨hs, ha, -⟩ := hinv.of_waitInput hfsm
    obtain ⟨hread, -, hother⟩ := read_after_input hv s.mem a
    exact ⟨_, awaitLine_of_valid [] ha hs.acc hv, hread, hother, by rw [← hinput]⟩
  · have hsame : { s with input := [], fsm := .waitInput a } = s := by rw [← hfsm, ← hinput]
    exact (awaitLine_of_invalid s (by simpa using hinvalid)).trans
      (next_inj.mpr (congrArg (State.emit · .inputRequest) hsame))

/-- Settles O25: such a step changes nothing (`step_of_waiting`), hence no number of them does. -/
theorem waitWithoutLineChangesNothing : Obligations.WaitWithoutLineChangesNothing := fun _ _ k hfsm hinput =>
  run_of_fixed (step_of_waiting hfsm hinput) k

end Machine

end Sys2Proof
end

section
/-! PROOFS. The canonical form of memory (log entry 1): O47. -/

namespace Sys2Proof.Machine

/-- The cells of a canonical memory are exactly what it reads as other than `+000000`. -/
theorem Memory.mem_iff_read {m : Memory} (h : m.wf) (c : Nat × Word) :
    c ∈ m ↔ m.read c.1 = c.2 ∧ c.2 ≠ Word.zero := by
  induction m with
  | nil => simp [Memory.read, eq_comm]
  | cons d rest ih =>
    obtain ⟨hrising, hcells⟩ := h
    have hhead := (List.pairwise_cons.mp hrising).1
    have hd : d.2 ≠ Word.zero := (hcells d List.mem_cons_self).2
    rw [List.mem_cons, Memory.read]
    split
    next hc =>
      have hnot : c ∉ rest := fun hmem => absurd (hhead c hmem) (by omega)
      constructor
      · rintro (rfl | hmem)
        · exact ⟨rfl, hd⟩
        · exact absurd hmem hnot
      · rintro ⟨hval, -⟩
        exact .inl (Prod.ext hc.symm hval.symm)
    next hc =>
      rw [← ih (Memory.wf_tail ⟨hrising, hcells⟩)]
      exact or_iff_right fun heq => hc (by rw [heq])

/-- Settles O47: memories that read alike list the same cells, and rising addresses leave one order for them. -/
theorem canonicalMemoriesReadAlikeAreEqual : Obligations.CanonicalMemoriesReadAlikeAreEqual := by
  intro m n hm hn hread
  have : Std.Irrefl fun c d : Nat × Word => c.1 < d.1 := ⟨fun c => Nat.lt_irrefl c.1⟩
  have : Std.Antisymm fun c d : Nat × Word => c.1 < d.1 := ⟨fun c d hcd hdc => absurd hcd (Nat.lt_asymm hdc)⟩
  refine hm.1.eq_of_mem_iff hn.1 fun c => ?_
  rw [Memory.mem_iff_read hm, Memory.mem_iff_read hn, hread]

end Sys2Proof.Machine
end

section
/-! PROOFS. HALT, the branch unit alone, the step as a whole, faults, the stop request and the end of a run
(44_control.md sections 1 and 3, 40_cycle.md sections 3 and 4, 60_exceptions.md): O30, O31, O32, O35, O36, O38, O39,
O40, O54, O55. -/

namespace Sys2Proof.Machine

/-- Settles O30: the row of HALT in the table, whose operand digits are free, and HALT's effect as it stands. -/
theorem haltStopsWithNotice : Obligations.HaltStopsWithNotice :=
  ⟨fun sg _ hx => decode_instrWord (i := .halt) sg hx (.inr rfl), fun _ => rfl⟩

/-- Settles O31: the range test comes before the question whether the branch is taken. -/
theorem branchUnitChecksTarget : Obligations.BranchUnitChecksTarget := by
  intro s target taken
  refine ⟨fun hout => if_pos hout, fun ⟨hlow, hhigh⟩ => ?_⟩
  obtain ⟨a, rfl⟩ := Int.eq_ofNat_of_zero_le hlow
  have ha : a < Config.memoryLength := Int.ofNat_lt.mp hhigh
  refine ⟨_, branchUnit_of_lt taken s ha, ?_⟩
  cases taken <;> exact ⟨rfl, rfl⟩

/-! ### The step where a cycle can be performed -/

/-- A step that can perform a cycle is that cycle (40_cycle.md R113). -/
theorem step_of_canCycle {s : State} (h : s.canCycle) : step s = cycle s := by
  obtain ⟨hact, hwaits⟩ := h
  have hfsm := State.waits_eq_false.mp hwaits
  unfold step stepRequest
  rw [if_pos hact]
  split
  · exact absurd ‹_› (hfsm _)
  · rfl

/-- The word a cycle fetches where `pc` is below `N` (40_cycle.md R102). -/
theorem State.fetch_of_lt {s : State} (h : s.pc < Config.memoryLength) : s.fetch = some (s.mem.read s.pc) :=
  State.memRead_of_lt h

/-- A step executes the instruction its word decodes to (40_cycle.md R103). -/
theorem step_of_decode {s : State} {w : Word} {i : Instr} (hcan : s.canCycle) (hstop : s.stopReq = false)
    (hfetch : s.fetch = some w) (hdec : decode w = .ok i) : step s = exec i s.beginCycle := by
  rw [step_of_fetch hcan hstop hfetch, executeWord, hdec]

/-- Settles O32: what the decoder answers is well formed, and the step executes it. -/
theorem stepRunsDecodedInstruction : Obligations.StepRunsDecodedInstruction := fun _ _ _ hcan hstop hfetch hdec =>
  ⟨wellFormed_of_decode hdec, step_of_decode hcan hstop hfetch hdec⟩

/-- Settles O54: the cell STORE wrote reads as the encoded accumulator, and that word is the one fetched. -/
theorem fetchSeesStoredWord : Obligations.FetchSeesStoredWord := by
  intro s t a i ha hacc hexec hpc hcan hstop hdec
  obtain ⟨-, t', hexec', hread, -⟩ := storeWritesEncodedAccumulator s a ha hacc
  obtain rfl : t = t' := next_inj.mp (hexec.symm.trans hexec')
  have hfetch : t.fetch = some (Word.ofInt s.acc) := by
    rw [State.fetch_of_lt (by omega), hpc, hread]
  exact step_of_decode hcan hstop hfetch hdec

/-- Settles O35: there is no word to fetch past the end. -/
theorem fetchPastEndFaults : Obligations.FetchPastEndFaults := by
  intro s hcan hstop hpc
  rw [step_of_canCycle hcan]
  exact cycle_cases.mpr (.inr (.inl ⟨hstop, hpc, rfl⟩))

/-- Settles O36: a latched fault leaves no cycle to perform, so that no step changes anything (`step_of_inactive`). -/
theorem raiseLatchesFaultForGood : Obligations.RaiseLatchesFaultForGood := fun s f k =>
  ⟨rfl, run_of_fixed (step_of_inactive (s := s.raise f) rfl) k, rfl⟩

/-- The level of `stop_req` goes through a READ that waits untouched and changes nothing else (41_io.md R136). -/
theorem awaitLine_stopReq {a : Nat} {lines : List Text} {s t : State} (level : Bool)
    (h : awaitLine a lines s = .next t) :
    awaitLine a lines { s with stopReq := level } = .next { t with stopReq := level } := by
  induction lines generalizing s with
  | nil =>
    obtain rfl := next_inj.mp h
    rfl
  | cons l rest ih =>
    cases hl : acceptedValue l with
    | some v =>
      simp only [awaitLine, hl, storeCell_cases, complete_cases] at h ⊢
      obtain ⟨ha, rfl⟩ := h
      exact ⟨ha, rfl⟩
    | none =>
      simp only [awaitLine, hl] at h ⊢
      exact ih h

/-- A step while a READ waits goes on with the lines at the port (41_io.md R136). -/
theorem step_of_waitInput {s : State} {a : Nat} (hact : s.active = true) (hfsm : s.fsm = .waitInput a) :
    step s = awaitLine a s.input s := by
  simp [step, stepRequest, hact, hfsm]

/-- Settles O40: the cycle looks at the request before the fetch; a READ that waits does not look at it. -/
theorem stopRequestSeenAtTopOfCycle : Obligations.StopRequestSeenAtTopOfCycle := by
  refine ⟨fun s hcan hstop => ?_, fun s t a level hact hfsm hstep => ?_⟩
  · rw [step_of_canCycle hcan]
    exact cycle_cases.mpr (.inl ⟨hstop, rfl⟩)
  · rw [step_of_waitInput hact hfsm] at hstep
    exact (step_of_waitInput (s := { s with stopReq := level }) hact hfsm).trans (awaitLine_stopReq level hstep)

/-! ### The end of a run -/

/-- `run` performs no cycle where none is left to perform (40_cycle.md R112). -/
theorem runFor_of_not_runs {s : State} (h : s.runs = false) (k : Nat) : runFor k s = .next s := by
  cases k <;> simp [runFor, h]

/-- A state in which `run` performs no cycle is one a step leaves as it is (40_cycle.md R112, R115). -/
theorem step_of_not_runs {s : State} (h : s.runs = false) : step s = .next s := by
  cases hact : s.active with
  | false => exact step_of_inactive hact
  | true =>
    have hwait : s.waits = true ∧ s.input = [] := by simpa [State.runs, hact] using h
    obtain ⟨hwaits, hinput⟩ := hwait
    obtain ⟨a, hfsm⟩ := State.waits_eq_true.mp hwaits
    exact step_of_waiting hfsm hinput

/-- Settles O38: after the end neither a step nor a run finds a cycle to perform. -/
theorem endedMachineIgnoresRequests : Obligations.EndedMachineIgnoresRequests := fun s k hact =>
  ⟨run_of_fixed (step_of_inactive hact) k, runFor_of_not_runs (by simp [State.runs, hact]) k⟩

/-- Settles O55, by induction on the bound: both make the same step where `run` performs one, and where it performs
none the step requests change nothing. -/
theorem runModeEqualsStepMode : Obligations.RunModeEqualsStepMode := by
  intro k
  induction k with
  | zero => exact fun s => rfl
  | succ k ih =>
    intro s
    cases hruns : s.runs with
    | false => exact (runFor_of_not_runs hruns _).trans (run_of_fixed (step_of_not_runs hruns) _).symm
    | true =>
      have hstep : core.step s = stepRequest s := rfl
      simp only [runFor, Host.Core.run, hruns, if_true, hstep]
      cases stepRequest s with
      | next t => exact ih t
      | fault r => rfl
      | refused r => rfl

/-- A load after the end makes the machine active again only if it succeeds (70_reset_and_hazards.md R245). -/
theorem load_eq_ok_of_active {s t : State} {lines : List Text} (hact : s.active = false)
    (hload : hostEvent (.load lines) s = .next t) (ht : t.active = true) : s.load lines = .ok t := by
  cases h : s.load lines with
  | ok u => rw [next_inj.mp ((hostEvent_load_of_ok h).symm.trans hload)]
  | error e =>
    obtain rfl := next_inj.mp ((hostEvent_load_of_error h).symm.trans hload)
    simp [hact] at ht

/-- A machine at its end waits for no line (10_state.md R31). -/
theorem State.inv.waits_of_inactive {s : State} (hinv : s.inv) (hact : s.active = false) : s.waits = false := by
  refine State.waits_eq_false.mpr fun a hfsm => ?_
  obtain ⟨hs, -, -⟩ := hinv.of_waitInput hfsm
  have hactive : s.active = true := State.active_eq_true.mpr ⟨hs.fault, hs.halted⟩
  simp [hact] at hactive

/-- Settles O39: a step, a level of `stop_req` and a line leave the latch and the flag as they were. -/
theorem onlyResetOrLoadLeavesEnd : Obligations.OnlyResetOrLoadLeavesEnd := by
  intro s t e hinv hact hevent ht
  have unchanged (h : t.active = s.active) : False := by simp [h, hact] at ht
  cases e with
  | reset => exact .inl rfl
  | load lines => exact .inr (.inl ⟨lines, rfl, load_eq_ok_of_active hact hevent ht⟩)
  | loadFromText raw => exact .inr (.inr ⟨raw, rfl, load_eq_ok_of_active hact hevent ht⟩)
  | step =>
    obtain rfl := next_inj.mp ((step_of_inactive hact).symm.trans hevent)
    exact (unchanged rfl).elim
  | stop level =>
    obtain rfl := next_inj.mp hevent
    exact (unchanged rfl).elim
  | line l =>
    obtain rfl := next_inj.mp ((hostEvent_line_of_not_waits l (hinv.waits_of_inactive hact)).symm.trans hevent)
    exact (unchanged rfl).elim

end Sys2Proof.Machine
end

section
/-! PROOFS. What a cycle changes and what it leaves (10_state.md, 20_memory.md section 2, 41_io.md, 60_exceptions.md
section 2): O37, O41, O48, O49, O50, O51, O52, O53. -/

namespace Sys2Proof.Machine

/-! ### The frame of each operation -/

/-- The output is the events without the requests (41_io.md R133). -/
theorem State.output_append (s : State) (es : List PortEvent) :
    State.output { s with events := s.events ++ es } = s.output ++ es.filter fun e => e != .inputRequest :=
  List.filter_append _ _

theorem State.output_append_requests (s : State) (n : Nat) :
    State.output { s with events := s.events ++ List.replicate n .inputRequest } = s.output := by
  rw [State.output_append, List.filter_replicate]
  exact List.append_nil _

/-- What a READ cycle leaves alone while it waits for its line and stores it (41_io.md R131 to R134). -/
structure AwaitFrame (a : Nat) (s t : State) : Prop where
  mem : ∀ b, b ≠ a → t.mem.read b = s.mem.read b
  acc : s.accInRange → t.acc = s.acc
  pc : t.pc = s.pc
  halted : t.halted = s.halted
  fault : t.fault = s.fault
  output : t.output = s.output
  fsm : t.fsm ≠ .ready

theorem awaitLine_frame {a : Nat} {lines : List Text} {s t : State} (h : awaitLine a lines s = .next t) :
    AwaitFrame a s t := by
  rcases awaitLine_cases h with ⟨bad, line, rest, v, -, -, -, -, rfl⟩ | ⟨-, rfl⟩
  · exact { mem := fun b hb => Memory.read_write_other _ _ hb
            acc := truncate_of_lt
            pc := rfl
            halted := rfl
            fault := rfl
            output := s.output_append_requests _
            fsm := by simp }
  · exact { mem := fun b hb => rfl
            acc := fun _ => rfl
            pc := rfl
            halted := rfl
            fault := rfl
            output := s.output_append_requests _
            fsm := by simp }

/-- What an instruction prints (41_io.md R137, 44_control.md R185). -/
def printed (i : Instr) (s : State) : List PortEvent :=
  match i with
  | .write a => [.word (s.mem.read a).text]
  | .halt => [.haltNotice]
  | _ => []

/-- What an instruction may change, field by field, its operand having passed the check. -/
structure ExecFrame (i : Instr) (s t : State) : Prop where
  mem : ∀ b, t.mem.read b ≠ s.mem.read b → i = .read b ∨ i = .store b
  acc : s.accInRange → t.acc ≠ s.acc → i.opcode ∈ [20, 30, 31, 32, 33]
  pc : t.pc = s.pc + 1 ∨ (i.opcode ∈ [40, 41, 42] ∧ i.operand? = some t.pc)
  halted : t.halted = true ↔ s.halted = true ∨ i = .halt
  fault : t.fault = s.fault ∨ t = s.advance.raise .divideByZero
  output : t.output = s.output ++ printed i s
  input : i.opcode ≠ 10 → t.input = s.input
  fsm : s.fsm ≠ .ready → t.fsm ≠ .ready

/-- Every row of the opcode table keeps to its frame. -/
theorem execEffect_frame {i : Instr} {s t : State} (h : execEffect i s t) : ExecFrame i s t := by
  cases i with
  | read a =>
    have hframe := awaitLine_frame (s := s.advance.emit .inputRequest) h
    exact { mem := fun b hb => .inl (congrArg Instr.read (by_contra fun hne => hb (hframe.mem b (Ne.symm hne))))
            acc := fun hacc hne => absurd (hframe.acc hacc) hne
            pc := .inl hframe.pc
            halted := by simp [hframe.halted]
            fault := .inl hframe.fault
            output := hframe.output.trans ((s.output_append_requests 1).trans (List.append_nil _).symm)
            input := by simp [Instr.opcode]
            fsm := fun _ => hframe.fsm }
  | store a =>
    cases h
    exact { mem := fun b hb => .inr (congrArg Instr.store
              (by_contra fun hne => hb (Memory.read_write_other _ _ (Ne.symm hne))))
            acc := fun hacc hne => absurd (truncate_of_lt hacc) hne
            pc := .inl rfl
            halted := by simp
            fault := .inl rfl
            output := (List.append_nil _).symm
            input := fun _ => rfl
            fsm := fun hfsm => hfsm }
  | divide a =>
    rcases h with ⟨-, rfl⟩ | ⟨-, rfl⟩ <;> constructor <;> simp [Instr.opcode, printed, State.output]
  | branchNeg a | branchZero a =>
    cases h
    split <;> constructor <;>
      simp +contextual [Instr.opcode, Instr.operand?, printed, State.output, truncate_of_lt]
  | _ =>
    cases h
    constructor <;> simp +contextual [Instr.opcode, Instr.operand?, printed, State.output, truncate_of_lt]

/-! ### The word of the next cycle -/

theorem State.nextOpcodeIn_of_decode {s : State} {i : Instr} {opcs : List Nat} (hcan : s.canCycle)
    (hstop : s.stopReq = false) (hpc : s.pc < Config.memoryLength) (hdec : decode (s.mem.read s.pc) = .ok i)
    (hmem : i.opcode ∈ opcs) : s.nextOpcodeIn opcs := by
  obtain ⟨hopc, -⟩ := decode_eq_ok hdec
  exact ⟨hcan, hstop, _, State.fetch_of_lt hpc, hopc ▸ hmem⟩

theorem State.fetch_operand_of_decode {s : State} {i : Instr} {a : Nat} (hpc : s.pc < Config.memoryLength)
    (hdec : decode (s.mem.read s.pc) = .ok i) (ha : i.operand? = some a) : s.fetch.map operand = some a := by
  rw [State.fetch_of_lt hpc, operand_of_decode hdec ha]
  rfl

theorem State.haltsNext_of_canCycle {s : State} (hcan : s.canCycle) (hstop : s.stopReq = false)
    (hpc : s.pc < Config.memoryLength) : s.haltsNext ↔ opcode (s.mem.read s.pc) = 43 := by
  rw [State.haltsNext, State.fetch_of_lt hpc, Option.map_some, Option.some_inj]
  exact ⟨fun ⟨_, _, hopc⟩ => hopc, fun hopc => ⟨hcan, hstop, hopc⟩⟩

/-- HALT is the one instruction of opcode 043 (30_encoding.md R84). -/
theorem eq_halt_iff_of_decode {w : Word} {i : Instr} (h : decode w = .ok i) : i = .halt ↔ opcode w = 43 := by
  obtain ⟨hopc, -⟩ := decode_eq_ok h
  rw [← hopc]
  cases i <;> simp [Instr.opcode]

/-! ### The whole step -/

/-- Settles O37: the six ends of a step; within an instruction only DIVIDE faults past the operand check. -/
theorem faultsArePrecise : Obligations.FaultsArePrecise := by
  rintro s t f - hnone hstep hf
  have kept (h : t.fault = s.fault) : False := by simp [h, hnone] at hf
  rcases step_cases hstep with ⟨-, rfl⟩ | ⟨-, a, -, hline⟩ | ⟨-, -, rfl⟩ | ⟨-, -, -, rfl⟩ |
    ⟨-, -, -, i, -, hexec⟩ | ⟨-, -, -, -, hillegal⟩
  · exact (kept rfl).elim
  · exact (kept (awaitLine_frame hline).fault).elim
  · exact (kept rfl).elim
  · obtain rfl := Option.some.inj hf
    exact ⟨rfl, rfl⟩
  · rcases exec_cases hexec with ⟨a, -, -, rfl⟩ | ⟨-, heffect⟩
    · obtain rfl := Option.some.inj hf
      exact ⟨rfl, rfl⟩
    · rcases (execEffect_frame heffect).fault with h | rfl
      · exact (kept h).elim
      · obtain rfl := Option.some.inj hf
        exact ⟨rfl, rfl⟩
  · rcases illegalWord_cases.mp hillegal with ⟨-, rfl⟩ | ⟨-, rfl⟩ <;>
    · obtain rfl := Option.some.inj hf
      exact ⟨rfl, rfl⟩

/-- No step leads to Ready (10_state.md R32): a cycle has begun, or the run has ended. -/
theorem step_fsm_ne_ready {s t : State} (hinv : s.inv) (hstep : step s = .next t) : t.fsm ≠ .ready := by
  rcases step_cases hstep with ⟨hact, rfl⟩ | ⟨-, a, -, hline⟩ | ⟨-, -, rfl⟩ | ⟨-, -, -, rfl⟩ |
    ⟨-, -, -, i, -, hexec⟩ | ⟨-, -, -, -, hillegal⟩
  · intro hready
    obtain ⟨-, -, -, hcoh⟩ := hinv
    obtain ⟨hhalted, hfault, -⟩ := (State.fsmCoherent_ready hready).mp hcoh
    simp [State.active, hhalted, hfault] at hact
  · exact (awaitLine_frame hline).fsm
  · simp
  · simp
  · rcases exec_cases hexec with ⟨a, -, -, rfl⟩ | ⟨-, heffect⟩
    · simp
    · exact (execEffect_frame heffect).fsm (by simp)
  · rcases illegalWord_cases.mp hillegal with ⟨-, rfl⟩ | ⟨-, rfl⟩ <;> simp

/-- Settles O41: the state the step leaves meets the invariant (O42) and is not Ready, and in each other FSM state
coherence says what the latch and the flag hold. -/
theorem stepResultTellsOutcome : Obligations.StepResultTellsOutcome := by
  intro s t hinv hstep
  obtain ⟨-, -, -, hcoh⟩ := stepKeepsInvariant s t hinv hstep
  cases hfsm : t.fsm with
  | ready => exact absurd hfsm (step_fsm_ne_ready hinv hstep)
  | running =>
    obtain ⟨hhalted, hfault⟩ := (State.fsmCoherent_running hfsm).mp hcoh
    simp [State.stepResult, State.waits, hhalted, hfault, hfsm]
  | waitInput a =>
    obtain ⟨hhalted, hfault, -⟩ := (State.fsmCoherent_waitInput hfsm).mp hcoh
    simp [State.stepResult, State.waits, hhalted, hfault, hfsm]
  | halted =>
    obtain ⟨hhalted, hfault⟩ := (State.fsmCoherent_halted hfsm).mp hcoh
    simp [State.stepResult, hhalted, hfault]
  | faulted =>
    obtain ⟨hhalted, hfault⟩ := (State.fsmCoherent_faulted hfsm).mp hcoh
    obtain ⟨f, hf⟩ := Option.isSome_iff_exists.mp hfault
    simp [State.stepResult, hhalted, hf]

/-- Where a step can write memory, the accumulator or the output: in a READ that waits and in an instruction. Every
other end of a step leaves all three. -/
theorem step_frame {s t : State} (hstep : step s = .next t) :
    (t.mem = s.mem ∧ t.acc = s.acc ∧ t.output = s.output) ∨
      (∃ a, s.fsm = .waitInput a ∧ AwaitFrame a s t) ∨
      (s.canCycle ∧ s.stopReq = false ∧ s.pc < Config.memoryLength ∧
        ∃ i, decode (s.mem.read s.pc) = .ok i ∧ ExecFrame i s.beginCycle t) := by
  rcases step_cases hstep with ⟨-, rfl⟩ | ⟨-, a, hfsm, hline⟩ | ⟨-, -, rfl⟩ | ⟨-, -, -, rfl⟩ |
    ⟨hcan, hstop, hpc, i, hdec, hexec⟩ | ⟨-, -, -, -, hillegal⟩
  · exact .inl ⟨rfl, rfl, rfl⟩
  · exact .inr (.inl ⟨a, hfsm, awaitLine_frame hline⟩)
  · exact .inl ⟨rfl, rfl, rfl⟩
  · exact .inl ⟨rfl, rfl, rfl⟩
  · rcases exec_cases hexec with ⟨a, -, -, rfl⟩ | ⟨-, heffect⟩
    · exact .inl ⟨rfl, rfl, rfl⟩
    · exact .inr (.inr ⟨hcan, hstop, hpc, i, hdec, execEffect_frame heffect⟩)
  · rcases illegalWord_cases.mp hillegal with ⟨-, rfl⟩ | ⟨-, rfl⟩ <;> exact .inl ⟨rfl, rfl, rfl⟩

/-- Settles O48: a READ that waits writes its own cell, and of the instructions READ and STORE write theirs. -/
theorem onlyReadAndStoreWriteMemory : Obligations.OnlyReadAndStoreWriteMemory := by
  rintro s t b - hstep hne
  rcases step_frame hstep with ⟨hmem, -⟩ | ⟨a, hfsm, hframe⟩ | ⟨hcan, hstop, hpc, i, hdec, hframe⟩
  · exact absurd (by rw [hmem]) hne
  · obtain rfl : b = a := by_contra fun hba => hne (hframe.mem b hba)
    exact .inl hfsm
  · rcases hframe.mem b hne with rfl | rfl <;>
      exact .inr ⟨State.nextOpcodeIn_of_decode hcan hstop hpc hdec (by simp [Instr.opcode]),
        State.fetch_operand_of_decode hpc hdec rfl⟩

/-- Settles O49: only an instruction can change the accumulator, and its frame names those that do. -/
theorem onlyLoadAndArithmeticWriteAccumulator : Obligations.OnlyLoadAndArithmeticWriteAccumulator := by
  rintro s t ⟨-, hinRange, -⟩ hstep hne
  rcases step_frame hstep with ⟨-, hacc, -⟩ | ⟨a, -, hframe⟩ | ⟨hcan, hstop, hpc, i, hdec, hframe⟩
  · exact absurd hacc hne
  · exact absurd (hframe.acc hinRange) hne
  · exact State.nextOpcodeIn_of_decode hcan hstop hpc hdec (hframe.acc hinRange hne)

/-- Settles O50: the step's end decides which of the cases it is; a READ that waits performs no new cycle. -/
theorem programCounterAdvancesOrBranches : Obligations.ProgramCounterAdvancesOrBranches := by
  rintro s t - hstep
  rcases step_cases hstep with ⟨hact, rfl⟩ | ⟨-, a, hfsm, hline⟩ | ⟨-, hstop, rfl⟩ | ⟨-, -, -, rfl⟩ |
    ⟨hcan, hstop, hpc, i, hdec, hexec⟩ | ⟨hcan, hstop, -, -, hillegal⟩
  · exact .inr (.inr ⟨rfl, .inl fun ⟨hact', _⟩ => by simp [hact] at hact'⟩)
  · exact .inr (.inr ⟨(awaitLine_frame hline).pc, .inl fun hcan => State.waits_eq_false.mp hcan.2 a hfsm⟩)
  · exact .inr (.inr ⟨rfl, .inr (.inl hstop)⟩)
  · exact .inr (.inr ⟨rfl, .inr (.inr (.inr ⟨_, rfl⟩))⟩)
  · rcases exec_cases hexec with ⟨a, -, -, rfl⟩ | ⟨-, heffect⟩
    · exact .inr (.inr ⟨rfl, .inr (.inr (.inl ⟨_, rfl⟩))⟩)
    · rcases (execEffect_frame heffect).pc with hadvance | ⟨hopc, hopr⟩
      · exact .inr (.inl ⟨hcan, hstop, hadvance⟩)
      · exact .inl ⟨State.nextOpcodeIn_of_decode hcan hstop hpc hdec hopc,
          State.fetch_operand_of_decode hpc hdec hopr⟩
  · rcases illegalWord_cases.mp hillegal with ⟨-, rfl⟩ | ⟨-, rfl⟩
    · exact .inr (.inl ⟨hcan, hstop, rfl⟩)
    · exact .inr (.inr ⟨rfl, .inr (.inr (.inl ⟨_, rfl⟩))⟩)

/-- Settles O51: a halted machine performs no step; otherwise the flag is set by the stop request and by HALT, and
every other end of a step leaves it. -/
theorem haltedOnlyByHaltOrStop : Obligations.HaltedOnlyByHaltOrStop := by
  rintro s t - hstep
  refine ⟨fun hhalted => ?_, fun hrunning => ?_⟩
  · exact (next_inj.mp ((step_of_inactive (by simp [State.active, hhalted])).symm.trans hstep)).symm
  rcases step_cases hstep with ⟨hact, rfl⟩ | ⟨-, a, hfsm, hline⟩ | ⟨hcan, hstop, rfl⟩ | ⟨-, hstop, hpc, rfl⟩ |
    ⟨hcan, hstop, hpc, i, hdec, hexec⟩ | ⟨hcan, hstop, hpc, hopc, hillegal⟩
  · simp [hrunning, hact]
  · have hwaits := State.waits_eq_true.mpr ⟨a, hfsm⟩
    simp [(awaitLine_frame hline).halted, hrunning, hwaits]
  · exact iff_of_true rfl ⟨hcan, .inl hstop⟩
  · simp [hrunning, hstop, State.fetch, State.memRead_of_ge hpc]
  · have hright : (s.canCycle ∧ (s.stopReq = true ∨ s.haltsNext)) ↔ i = .halt := by
      rw [State.haltsNext_of_canCycle hcan hstop hpc, eq_halt_iff_of_decode hdec]
      exact ⟨fun ⟨_, h⟩ => h.resolve_left (by simp [hstop]), fun h => ⟨hcan, .inr h⟩⟩
    rw [hright]
    rcases exec_cases hexec with ⟨a, ha, -, rfl⟩ | ⟨-, heffect⟩
    · have hne : i ≠ .halt := by rintro rfl; cases ha
      simp [hrunning, hne]
    · simp [(execEffect_frame heffect).halted, hrunning]
  · have hright : ¬ (s.canCycle ∧ (s.stopReq = true ∨ s.haltsNext)) := by
      rw [State.haltsNext_of_canCycle hcan hstop hpc]
      rintro ⟨-, hstop' | hhalt⟩
      · simp [hstop] at hstop'
      · simp [hhalt, opcodeTable] at hopc
    refine iff_of_false ?_ hright
    rcases illegalWord_cases.mp hillegal with ⟨-, rfl⟩ | ⟨-, rfl⟩ <;> simp [hrunning]

/-- Settles O52: an instruction prints what `printed` says; no other end of a step prints. -/
theorem outputGrowsByWriteAndHalt : Obligations.OutputGrowsByWriteAndHalt := by
  rintro s t - hstep
  rcases step_frame hstep with ⟨-, -, houtput⟩ | ⟨a, -, hframe⟩ | ⟨hcan, hstop, hpc, i, hdec, hframe⟩
  · exact ⟨[], by rw [houtput, List.append_nil], .inl rfl⟩
  · exact ⟨[], by rw [hframe.output, List.append_nil], .inl rfl⟩
  · refine ⟨printed i s, hframe.output, ?_⟩
    cases i with
    | write a =>
      have hnext := State.nextOpcodeIn_of_decode (opcs := [11]) hcan hstop hpc hdec (by simp [Instr.opcode])
      refine .inr (.inl ⟨_, hnext, State.fetch_of_lt hpc, ?_⟩)
      rw [← operand_of_decode hdec rfl]
      rfl
    | halt =>
      have hhalts := (State.haltsNext_of_canCycle hcan hstop hpc).mpr ((eq_halt_iff_of_decode hdec).mp rfl)
      exact .inr (.inr ⟨hhalts, rfl⟩)
    | _ => exact .inl rfl

/-! ### The input -/

/-- An instruction's effect determines the next state. -/
theorem execEffect_unique {i : Instr} {s t u : State} (ht : execEffect i s t) (hu : execEffect i s u) : t = u := by
  cases i with
  | read a => exact next_inj.mp (ht.symm.trans hu)
  | divide a =>
    rcases ht with ⟨hzero, rfl⟩ | ⟨hne, rfl⟩ <;> rcases hu with ⟨hzero', rfl⟩ | ⟨hne', rfl⟩
    · rfl
    · exact absurd hzero hne'
    · exact absurd hzero' hne
    · rfl
  | _ => exact Eq.trans ht (Eq.symm hu)

/-- The converse of `exec_cases`: an instruction whose operand passes the check answers its effect. -/
theorem exec_of_execEffect {i : Instr} {s t : State} (hopr : ∀ a, i.operand? = some a → a < Config.memoryLength)
    (h : execEffect i s t) : exec i s = .next t := by
  obtain ⟨u, hu⟩ := exec_answers i s
  rcases exec_cases hu with ⟨a, ha, hge, -⟩ | ⟨-, heffect⟩
  · exact absurd (hopr a ha) (Nat.not_lt.mpr hge)
  · rw [hu, execEffect_unique heffect h]

/-- An instruction that is no READ has the same effect whatever lines are at the port (10_state.md R44). -/
theorem execEffect_of_input {i : Instr} {s t : State} (lines : List Text) (hi : i.opcode ≠ 10)
    (h : execEffect i s t) : execEffect i { s with input := lines } { t with input := lines } := by
  cases i with
  | read a => exact absurd rfl hi
  | divide a =>
    rcases h with ⟨hzero, rfl⟩ | ⟨hne, rfl⟩
    · exact .inl ⟨hzero, rfl⟩
    · exact .inr ⟨hne, rfl⟩
  | branchNeg a | branchZero a =>
    cases h
    simp only [execEffect]
    split <;> rfl
  | _ =>
    cases h
    rfl

/-- Executing a word that is no READ does the same whatever lines are at the port, and leaves them there. -/
theorem executeWord_of_input {w : Word} {s t : State} (lines : List Text) (hopc : opcode w ≠ 10)
    (h : executeWord w s = .next t) :
    t.input = s.input ∧ executeWord w { s with input := lines } = .next { t with input := lines } := by
  rcases executeWord_cases h with ⟨i, hdec, hexec⟩ | ⟨hnot, hillegal⟩
  · obtain ⟨hi, -⟩ := decode_eq_ok hdec
    have hword (u : State) : executeWord w u = exec i u := by rw [executeWord, hdec]
    rw [hword]
    rcases exec_cases hexec with ⟨a, ha, hge, rfl⟩ | ⟨hopr, heffect⟩
    · exact ⟨rfl, exec_of_operand_ge ha hge⟩
    · have hne : i.opcode ≠ 10 := hi ▸ hopc
      exact ⟨(execEffect_frame heffect).input hne, exec_of_execEffect hopr (execEffect_of_input lines hne heffect)⟩
  · have hword (u : State) : executeWord w u = illegalWord w u := by rw [executeWord, decode_of_opcode_not_mem hnot]
    rw [hword]
    rcases illegalWord_cases.mp hillegal with ⟨hlt, rfl⟩ | ⟨hge, rfl⟩
    · exact ⟨rfl, illegalWord_cases.mpr (.inl ⟨hlt, rfl⟩)⟩
    · exact ⟨rfl, illegalWord_cases.mpr (.inr ⟨hge, rfl⟩)⟩

/-- The same of a cycle: the stop request and the fetch do not look at the input either. -/
theorem cycle_of_input {s t : State} (lines : List Text) (hfetch : s.fetch.map opcode ≠ some 10)
    (h : cycle s = .next t) :
    t.input = s.input ∧ cycle { s with input := lines } = .next { t with input := lines } := by
  rcases cycle_cases.mp h with ⟨hstop, rfl⟩ | ⟨hstop, hpc, rfl⟩ | ⟨hstop, hpc, hexec⟩
  · exact ⟨rfl, cycle_cases.mpr (.inl ⟨hstop, rfl⟩)⟩
  · exact ⟨rfl, cycle_cases.mpr (.inr (.inl ⟨hstop, hpc, rfl⟩))⟩
  · have hopc : opcode (s.mem.read s.pc) ≠ 10 := by simpa [State.fetch_of_lt hpc] using hfetch
    obtain ⟨hinput, hexec'⟩ := executeWord_of_input lines hopc hexec
    exact ⟨hinput, cycle_cases.mpr (.inr (.inr ⟨hstop, hpc, hexec'⟩))⟩

/-- Settles O53: with no READ waiting the step is a cycle or nothing at all. -/
theorem onlyReadLooksAtInput : Obligations.OnlyReadLooksAtInput := by
  intro s t lines hwaits hfetch hstep
  rcases stepRequest_cases.mp hstep with ⟨hact, rfl⟩ | ⟨-, a, hfsm, -⟩ | ⟨hact, -, hcycle⟩
  · exact ⟨rfl, step_of_inactive hact⟩
  · exact absurd hfsm (State.waits_eq_false.mp hwaits a)
  · obtain ⟨hinput, hcycle'⟩ := cycle_of_input lines hfetch hcycle
    exact ⟨hinput, stepRequest_cases.mpr (.inr (.inr ⟨hact, hwaits, hcycle'⟩))⟩

end Sys2Proof.Machine
end

section
/-! PROOFS. The loader: the order of its errors, what it installs, and the legacy words (70_reset_and_hazards.md section
2): O57, O58, O59, O60. -/

namespace Sys2Proof.Machine

/-! ### The lines -/

/-- The validator's answer, line by line (70_reset_and_hazards.md R243). -/
theorem validateLines_eq_ok_iff {lines : List Text} {ws : List Word} :
    validateLines lines = .ok ws ↔ lines.map (fun l => Word.ofText? (migrate l)) = ws.map some := by
  induction lines generalizing ws with
  | nil => cases ws <;> simp [validateLines]
  | cons l ls ih =>
    cases hl : Word.ofText? (migrate l) with
    | none => cases ws <;> simp [validateLines, hl]
    | some w =>
      cases hls : validateLines ls with
      | ok ws' =>
        have htail := ih.mp hls
        cases ws with
        | nil => simp [validateLines, hl, hls]
        | cons v vs => simp [validateLines, hl, hls, htail, (Option.some_injective Word).list_map.eq_iff]
      | error e =>
        cases ws with
        | nil => simp [validateLines, hl, hls]
        | cons v vs =>
          have htail := (ih (ws := vs)).not.mp (by simp [hls])
          simp [validateLines, hl, hls, htail]

/-- Lines validate exactly if each is a word after migration (70_reset_and_hazards.md R243). -/
theorem exists_validateLines_eq_ok {lines : List Text} :
    (∃ ws, validateLines lines = .ok ws) ↔ ∀ l ∈ lines, ∃ w, Word.ofText? (migrate l) = some w := by
  constructor
  · rintro ⟨ws, hws⟩ l hl
    have hmem := List.mem_map_of_mem (f := fun l => Word.ofText? (migrate l)) hl
    rw [validateLines_eq_ok_iff.mp hws] at hmem
    obtain ⟨w, -, hw⟩ := List.mem_map.mp hmem
    exact ⟨w, hw.symm⟩
  · intro h
    cases hlines : validateLines lines with
    | ok ws => exact ⟨ws, rfl⟩
    | error e =>
      obtain ⟨good, t, rest, rfl, -, hbad, -⟩ := validateLines_eq_error hlines
      obtain ⟨w, hw⟩ := h t (by simp)
      simp [hbad] at hw

/-- The first bad line decides the error (70_reset_and_hazards.md R243). -/
theorem validateLines_eq_invalidWord_iff {lines : List Text} {t : Text} :
    validateLines lines = .error (.invalidWord t) ↔
      ∃ good rest, lines = good ++ t :: rest ∧ Word.ofText? (migrate t) = none ∧
        ∀ l ∈ good, Word.ofText? (migrate l) ≠ none := by
  constructor
  · intro h
    obtain ⟨good, t', rest, hsplit, ht, hbad, hgood⟩ := validateLines_eq_error h
    cases ht
    exact ⟨good, rest, hsplit, hbad, hgood⟩
  · rintro ⟨good, rest, rfl, hbad, hgood⟩
    induction good with
    | nil => simp [validateLines, hbad]
    | cons l good ih =>
      obtain ⟨w, hw⟩ := Option.ne_none_iff_exists'.mp (hgood l List.mem_cons_self)
      simp [validateLines, hw, ih fun l' hl' => hgood l' (List.mem_cons_of_mem _ hl')]

/-- Some word of a program that validates is a HALT word exactly if some line is (70_reset_and_hazards.md R244). -/
theorem any_isHaltWord_iff {lines : List Text} {ws : List Word} (h : validateLines lines = .ok ws) :
    ws.any isHaltWord = true ↔ ∃ l ∈ lines, ∃ w, Word.ofText? (migrate l) = some w ∧ opcode w = 43 := by
  have hmem (w : Word) : w ∈ ws ↔ ∃ l ∈ lines, Word.ofText? (migrate l) = some w := by
    rw [← List.mem_map_of_injective (Option.some_injective Word), ← validateLines_eq_ok_iff.mp h, List.mem_map]
  simp only [List.any_eq_true, hmem, isHaltWord, beq_iff_eq]
  constructor
  · rintro ⟨w, ⟨l, hl, hw⟩, hopc⟩
    exact ⟨l, hl, w, hw, hopc⟩
  · rintro ⟨l, hl, w, hw, hopc⟩
    exact ⟨w, ⟨l, hl, hw⟩, hopc⟩

/-! ### The three checks -/

theorem checkProgram_of_error {lines : List Text} {e : LoadError} (h : lines.length ≤ Config.memoryLength)
    (he : validateLines lines = .error e) : checkProgram lines = .error e := by
  rw [checkProgram, if_neg (Nat.not_lt.mpr h), he]

theorem checkProgram_of_ok {lines : List Text} {ws : List Word} (h : lines.length ≤ Config.memoryLength)
    (hws : validateLines lines = .ok ws) :
    checkProgram lines = if ws.any isHaltWord then .ok ws else .error .noHaltInstruction := by
  rw [checkProgram, if_neg (Nat.not_lt.mpr h), hws]

/-- InvalidWord comes after the size check and before the HALT check (70_reset_and_hazards.md R243). -/
theorem checkProgram_eq_invalidWord_iff {lines : List Text} {t : Text} :
    checkProgram lines = .error (.invalidWord t) ↔
      lines.length ≤ Config.memoryLength ∧ validateLines lines = .error (.invalidWord t) := by
  rcases Nat.lt_or_ge Config.memoryLength lines.length with hgt | hle
  · simp [checkProgram_of_gt hgt, hgt]
  · cases hlines : validateLines lines with
    | error e => simp [checkProgram_of_error hle hlines, hle]
    | ok ws => cases hhalt : ws.any isHaltWord <;> simp [checkProgram_of_ok hle hlines, hhalt]

/-- NoHaltInstruction is the last of the checks (70_reset_and_hazards.md R244). -/
theorem checkProgram_eq_noHalt_iff {lines : List Text} :
    checkProgram lines = .error .noHaltInstruction ↔
      lines.length ≤ Config.memoryLength ∧ ∃ ws, validateLines lines = .ok ws ∧ ws.any isHaltWord = false := by
  rcases Nat.lt_or_ge Config.memoryLength lines.length with hgt | hle
  · simp [checkProgram_of_gt hgt, hgt]
  · cases hlines : validateLines lines with
    | error e =>
      obtain ⟨_, _, _, -, rfl, -, -⟩ := validateLines_eq_error hlines
      simp [checkProgram_of_error hle hlines]
    | ok ws =>
      cases hhalt : ws.any isHaltWord <;>
        simp [checkProgram_of_ok hle hlines, hhalt, hle, -List.any_eq_true, -List.any_eq_false]

/-- What passes the three checks (70_reset_and_hazards.md R239, R243, R244). -/
theorem checkProgram_eq_ok_iff {lines : List Text} {ws : List Word} :
    checkProgram lines = .ok ws ↔
      lines.length ≤ Config.memoryLength ∧ validateLines lines = .ok ws ∧ ws.any isHaltWord = true := by
  rcases Nat.lt_or_ge Config.memoryLength lines.length with hgt | hle
  · simp [checkProgram_of_gt hgt, hgt]
  · cases hlines : validateLines lines with
    | error e => simp [checkProgram_of_error hle hlines]
    | ok ws' =>
      rw [checkProgram_of_ok hle hlines]
      constructor
      · intro h
        split at h
        · cases h
          exact ⟨hle, rfl, ‹_›⟩
        · cases h
      · rintro ⟨-, h, hhalt⟩
        cases h
        exact if_pos hhalt

/-- Settles O57: the two errors after the size check, line by line. -/
theorem loaderErrorsInOrder : Obligations.LoaderErrorsInOrder := by
  intro s lines
  constructor
  · intro t
    rw [State.load_eq_error_iff, checkProgram_eq_invalidWord_iff, validateLines_eq_invalidWord_iff]
  · rw [State.load_eq_error_iff, checkProgram_eq_noHalt_iff]
    refine and_congr_right fun _ => ⟨?_, fun hlines => ?_⟩
    · rintro ⟨ws, hws, hnohalt⟩ l hl
      obtain ⟨w, hw⟩ := exists_validateLines_eq_ok.mp ⟨ws, hws⟩ l hl
      refine ⟨w, hw, fun hopc => ?_⟩
      simp [(any_isHaltWord_iff hws).mpr ⟨l, hl, w, hw, hopc⟩] at hnohalt
    · obtain ⟨ws, hws⟩ := exists_validateLines_eq_ok.mpr fun l hl => (hlines l hl).imp fun _ h => h.1
      refine ⟨ws, hws, Bool.eq_false_iff.mpr fun hhalt => ?_⟩
      obtain ⟨l, hl, w, hw, hopc⟩ := (any_isHaltWord_iff hws).mp hhalt
      obtain ⟨w', hw', hne⟩ := hlines l hl
      obtain rfl := Option.some.inj (hw.symm.trans hw')
      exact hne hopc

theorem State.exists_load_eq_ok {s : State} {lines : List Text} :
    (∃ t, s.load lines = .ok t) ↔ ∃ ws, checkProgram lines = .ok ws := by
  unfold State.load
  cases checkProgram lines <;> simp

/-- Settles O59: the three checks together, and a failed load as the host sees it. -/
theorem loadSucceedsExactlyOnValidPrograms : Obligations.LoadSucceedsExactlyOnValidPrograms := by
  intro s lines
  refine ⟨?_, fun e he => hostEvent_load_of_error he⟩
  rw [State.exists_load_eq_ok, ← exists_validateLines_eq_ok]
  constructor
  · rintro ⟨ws, hws⟩
    obtain ⟨hlen, hlines, hhalt⟩ := checkProgram_eq_ok_iff.mp hws
    exact ⟨hlen, ⟨ws, hlines⟩, (any_isHaltWord_iff hlines).mp hhalt⟩
  · rintro ⟨hlen, ⟨ws, hlines⟩, hhalt⟩
    exact ⟨ws, checkProgram_eq_ok_iff.mpr ⟨hlen, hlines, (any_isHaltWord_iff hlines).mpr hhalt⟩⟩

/-- The cells an install leaves: the image from cell 0 on, and `+000000` beyond it (70_reset_and_hazards.md R245). -/
theorem State.install_read (s : State) (image : List Word) (i : Nat) :
    (s.install image).mem.read i = image[i]?.getD Word.zero := by
  have hread := writeImage_read image 0 i s.resetCore.mem
  rwa [if_pos (Nat.zero_le i), Nat.sub_zero] at hread

/-- Settles O58: the image is the words of the lines (`validateLines_eq_ok`), and the rest is the core's reset. -/
theorem loadInstallsImage : Obligations.LoadInstallsImage := by
  intro s t lines hload
  obtain ⟨hlen, ws, hws, hhalt, rfl⟩ := State.load_eq_ok hload
  obtain ⟨hwslen, hline⟩ := validateLines_eq_ok hws
  refine ⟨hlen, fun i l hl => ?_, fun i hi => ?_, ?_, rfl⟩
  · obtain ⟨w, hw, htext⟩ := hline i l hl
    rw [State.install_read, hw, Option.getD_some]
    exact ((wordTextRoundTrip _ w).mp htext).symm
  · rw [State.install_read, List.getElem?_eq_none (by omega)]
    rfl
  · obtain ⟨w, hw, hopc⟩ := List.any_eq_true.mp hhalt
    obtain ⟨i, hi, hget⟩ := List.mem_iff_getElem.mp hw
    refine ⟨i, by omega, ?_⟩
    rw [State.install_read, List.getElem?_eq_getElem hi, hget, Option.getD_some]
    exact beq_iff_eq.mp hopc

/-! ### Legacy words (70_reset_and_hazards.md R240 to R242) -/

/-- Two numbers of `k` digits with the same text are equal. -/
theorem digitsText_inj {k m n : Nat} (hm : m < 10 ^ k) (hn : n < 10 ^ k) (h : digitsText k m = digitsText k n) :
    m = n := by
  have hparse := (parseDigits_digitsText k m 0).symm.trans (h ▸ parseDigits_digitsText k n 0)
  simpa [Nat.mod_eq_of_lt hm, Nat.mod_eq_of_lt hn] using hparse

/-- The legacy opcodes are the opcodes of the table, written in two digits (70_reset_and_hazards.md R242). -/
theorem legacyOpcodes_eq : legacyOpcodes = opcodeTable.map (digitsText 2) := by decide

theorem digitsText_mem_legacyOpcodes {k : Nat} (hk : k < 100) : digitsText 2 k ∈ legacyOpcodes ↔ k ∈ opcodeTable := by
  have hsmall : ∀ j ∈ opcodeTable, j < 10 ^ 2 := by decide
  rw [legacyOpcodes_eq, List.mem_map]
  constructor
  · rintro ⟨j, hj, htext⟩
    rwa [← digitsText_inj (hsmall j hj) hk htext]
  · exact fun h => ⟨k, h, rfl⟩

/-- Migration of a sign and four digits: a digit 0 before each half of an instruction word, two before any other
(70_reset_and_hazards.md R241). -/
theorem migrate_digitsText (sg : Sign) (n : Nat) :
    migrate (signChar sg :: digitsText 4 n) =
      if digitsText 2 (n / 100) ∈ legacyOpcodes then
        signChar sg :: '0' :: (digitsText 2 (n / 100) ++ '0' :: digitsText 2 n)
      else signChar sg :: '0' :: '0' :: digitsText 4 n := by
  rw [show digitsText 4 n = digitsText 2 (n / 100) ++ digitsText 2 n from digitsText_add 2 2 n]
  rfl

/-- A number that leaves the leading digit free is written with a leading 0. -/
theorem digitsText_succ_of_lt {k n : Nat} (h : n < 10 ^ k) : digitsText (k + 1) n = '0' :: digitsText k n := by
  rw [digitsText, Nat.div_eq_of_lt h]
  rfl

/-- Settles O60: either way migration writes the text of the word claimed, and the validator reads it back (O6). -/
theorem legacyWordMigrates : Obligations.LegacyWordMigrates := by
  intro sg n hn
  have hhigh : n / 100 < 100 := by omega
  have hmem : n / 100 ∈ [10, 11, 20, 21, 30, 31, 32, 33, 40, 41, 42, 43] ↔ digitsText 2 (n / 100) ∈ legacyOpcodes :=
    (digitsText_mem_legacyOpcodes hhigh).symm
  simp only [migrate_digitsText, hmem]
  split
  · have hlow : n % 100 < Config.operandValues := (Nat.mod_lt n (by decide)).trans (by decide)
    have hopc : digitsText 3 (n / 100) = '0' :: digitsText 2 (n / 100) := digitsText_succ_of_lt hhigh
    have hopr : digitsText 3 (n % 100) = '0' :: digitsText 2 n := by
      rw [← digitsText_mod 2 n]
      exact digitsText_succ_of_lt (Nat.mod_lt n (by decide))
    obtain ⟨htext, -⟩ := wordTextIsSignOpcodeOperand (instrWord sg (n / 100) (n % 100))
    rw [opcode_instrWord sg (by omega) hlow, operand_instrWord sg (by omega) hlow, hopc, hopr] at htext
    exact (wordTextRoundTrip _ _).mpr htext.symm
  · have hmag : (Fin.ofNat Config.wordModulus n).val = n := Nat.mod_eq_of_lt (hn.trans (by decide))
    refine (wordTextRoundTrip _ _).mpr ?_
    rw [Word.text, hmag, digitsText_succ_of_lt (show n < 10 ^ 5 by omega),
      digitsText_succ_of_lt (show n < 10 ^ 4 by omega)]

end Sys2Proof.Machine
end
